-- ==== Sys2Proof/Word.lean ====
section
/-! DEFINITION. The two finite types the format is made of: bytes of either memory, and the 3-bit lane
indices (pixel column, pixel row, plane). -/

namespace Sys2Proof

/-- One byte of `P` or `G`, or one pixel: "an 8-bit unsigned value in [0,255]" (R7, R42, R44). -/
abbrev Byte := BitVec 8

/-- A pixel column `x`, a pixel row `y` or a plane index `b`, each in `[0,8)` (R22). -/
abbrev Lane := Fin 8

end Sys2Proof
end

