-- ==== Sys2Proof/Config.lean ====
section
/-! DEFINITION. The constants of the format (R7), the spec's default widths (R8), and the free values: constants
without a body, so that no proof can rest on what they are. -/

namespace Sys2Proof.Config

/-- `TILE_W` and `TILE_H` of R7: the only legal `width` and `height` (R76). -/
abbrev tileSide : Byte := 8

/-- `ROW_STRIDE` of R7. -/
abbrev rowStride : Nat := 2

/-- `TILE_BYTES` of R7: 64, not the 16 of the source's prose (90_conflicts.md C1). -/
abbrev tileBytes : Nat := 64

/-- Default `ADDR_W` of R8, the one `spec/opcode_table.json` is written with. -/
abbrev addrW : Nat := 32

/-- Default `COORD_W` of R8, the one `spec/opcode_table.json` is written with. -/
abbrev coordW : Nat := 16

/-- DESIGN CHOICE (log 8). What a captured field or a working value holds when no command runs, for the draw of that
return to IDLE and the number of the field: R22, R25 and R32 leave it unspecified (93_implementation_defined.md U7). -/
opaque idleValue : Nat → Nat → Nat

/-- DESIGN CHOICE (log 9). The pixel byte at a linear index that two pixels of one DECODE target, for the draw of that
DECODE: R100 corner case (f) says it is not defined (U4). -/
opaque contestedByte : Nat → Nat → Byte

/-- DESIGN CHOICE (log 11). Which of the values that R32 allows a byte of an abandoned command's write set holds, for
the draw of that reset and the address or index of the byte (U6). -/
opaque abandonedChoice : Nat → Nat → Nat

end Sys2Proof.Config
end

