-- ==== Sys2Proof/Syntax.lean ====
section
/-! DEFINITION. The commands (R70, R71): one constructor of `Instr` for each row of `spec/opcode_table.json`, over one
record of operand fields. -/

namespace Sys2Proof

/-- The widths `ADDR_W` and `COORD_W` that the environment fixes (R8): the shape of a `CMD` word depends on them. -/
structure Widths where
  addrW  : Nat
  coordW : Nat
deriving DecidableEq, Repr

/-- The operand fields of a `CMD` (R71), in the order of R72. `tileAddr`, `baseX` and `baseY` are naturals because their
widths are parameters and R74 uses them zero-extended; `Fields.wf` bounds them. -/
structure Fields where
  width    : Byte
  height   : Byte
  tileAddr : Nat
  baseX    : Nat
  baseY    : Nat
deriving DecidableEq, Repr

/-- The two commands (R70). -/
inductive Instr where
  /-- `DECODE`, the unpacker: planar bytes to pixel grid (R100). -/
  | decode (f : Fields)
  /-- `ENCODE`, the packer: pixel grid to planar bytes (R110). -/
  | encode (f : Fields)
deriving DecidableEq, Repr

end Sys2Proof
end

