-- ==== Sys2Proof/WellFormed.lean ====
section
/-! DEFINITION. Which terms of `Instr` are commands: every field fits the width R71 gives it. Legality (R76) is apart:
an illegal command is well formed and raises a fault when it runs. -/

namespace Sys2Proof

/-- Every field fits its width (R71). `width` and `height` fit by their type. -/
def Fields.wf (ws : Widths) (f : Fields) : Bool :=
  decide (f.tileAddr < 2 ^ ws.addrW) && decide (f.baseX < 2 ^ ws.coordW) && decide (f.baseY < 2 ^ ws.coordW)

/-- The operand fields of a command. -/
def Instr.fields : Instr → Fields
  | .decode f => f
  | .encode f => f

/-- A command of the given widths (R71). -/
def Instr.wf (ws : Widths) (i : Instr) : Bool := i.fields.wf ws

/-- The legal commands: `width = 8` and `height = 8` (R76). -/
def Fields.legal (f : Fields) : Bool :=
  decide (f.width = Config.tileSide) && decide (f.height = Config.tileSide)

end Sys2Proof
end

