-- ==== Sys2Proof/Decode.lean ====
section
/-! DEFINITION. The `CMD` word (R72): its decoder, total on any number and refusing by name one that is wider than a
`CMD`; after it the encoder; and the operand list of a listing line (R75, R81). -/

namespace Sys2Proof

/-- Why a number is no command. -/
inductive DecodeError where
  /-- It has a bit at or above `17 + ADDR_W + 2*COORD_W`: no such word fits the command input (R72). -/
  | wordTooWide
deriving DecidableEq, Repr

/-- The length of a `CMD` word in bits (R72). -/
def cmdBits (ws : Widths) : Nat := 17 + ws.addrW + 2 * ws.coordW

/-- Bits `lo + len - 1` down to `lo` of `w` (R10). -/
def bitsAt (w lo len : Nat) : Nat := (w >>> lo) % 2 ^ len

/-- The operand fields at the places of R72. -/
def decodeFields (ws : Widths) (w : Nat) : Fields where
  width    := BitVec.ofNat 8 (bitsAt w 1 8)
  height   := BitVec.ofNat 8 (bitsAt w 9 8)
  tileAddr := bitsAt w 17 ws.addrW
  baseX    := bitsAt w (17 + ws.addrW) ws.coordW
  baseY    := bitsAt w (17 + ws.addrW + ws.coordW) ws.coordW

/-- The command a word selects: bit 0 alone decides (R73). -/
def decode (ws : Widths) (w : Nat) : Except DecodeError Instr :=
  if w < 2 ^ cmdBits ws then
    .ok (if bitsAt w 0 1 = 0 then .decode (decodeFields ws w) else .encode (decodeFields ws w))
  else
    .error .wordTooWide

/-- The operand fields at their places, as the sum R72 writes. -/
def encodeFields (ws : Widths) (f : Fields) : Nat :=
  (f.width.toNat <<< 1) + (f.height.toNat <<< 9) + (f.tileAddr <<< 17) + (f.baseX <<< (17 + ws.addrW))
    + (f.baseY <<< (17 + ws.addrW + ws.coordW))

/-- The value of the `op` field (R71). -/
def Instr.op : Instr → Nat
  | .decode _ => 0
  | .encode _ => 1

/-- The `CMD` word of a command, the number of R72. -/
def encode (ws : Widths) (i : Instr) : Nat := i.op + encodeFields ws i.fields

/-- The widths `spec/opcode_table.json` is written with (R8, R72). -/
def tableWidths : Widths := ⟨Config.addrW, Config.coordW⟩

/-- The command my decoder reads from the low `nbits` bits of `w`, every higher bit of the word being 0. -/
def decodeTableWord (nbits w : Nat) : Option Instr :=
  (decode tableWidths (w % 2 ^ nbits)).toOption

/-- The operand fields of five numbers, where each fits its field. -/
def fieldsOfNumbers (ws : Widths) (a x y w h : Nat) : Option Fields :=
  if w < 256 ∧ h < 256 ∧ Fields.wf ws ⟨BitVec.ofNat 8 w, BitVec.ofNat 8 h, a, x, y⟩ then
    some ⟨BitVec.ofNat 8 w, BitVec.ofNat 8 h, a, x, y⟩
  else none

/-- The operands of a listing line: `tile_addr, base_x, base_y [, width, height]`, the omitted ones being 8 (R75, R81).
Any other number of operands is no line. R81 is silent on an operand that does not fit its field: that it makes no line,
whichever of the five it is, is a DESIGN CHOICE (log 26). -/
def operandsOfLine (ws : Widths) : List Nat → Option Fields
  | [a, x, y] => fieldsOfNumbers ws a x y 8 8
  | [a, x, y, w, h] => fieldsOfNumbers ws a x y w h
  | _ => none

end Sys2Proof
end

