-- ==== Sys2Proof/Machine/State.lean ====
section
/-! DEFINITION. Everything the spec gives the machine, as plain data: the codec instances with their phase, captured
command, working values and responses; the two memories; the environment's parameters and configuration; and the host's
pending actions. Then the reasons a step can stop, and the machine right after reset. -/

namespace Sys2Proof.Machine

/-- The outcome of a command, the `status` of its response (R26, R78). There is no fourth value (U8). -/
inductive Status where
  | ok
  | outOfRange
  | invalidDimensions
deriving DecidableEq, Repr

/-- The two fault kinds a command can raise (R140). Raising one is a next state, not a stop (R146). -/
inductive CodecFault where
  | outOfRange
  | invalidDimensions
deriving DecidableEq, Repr

/-- `IDLE`: no command captured; `BUSY`: one command captured and not yet responded to (R27). -/
inductive Phase where
  | idle
  | busy
deriving DecidableEq, Repr

/-- The working values of a running command (R22). -/
structure Working where
  x     : Lane
  y     : Lane
  b     : Lane
  pixel : Byte
  mask  : Byte
  cur   : Byte
  bit   : BitVec 1
deriving DecidableEq, Repr

/-- A response that the host has not taken (R26, R78): its `status`, and, the model's own, the command it answers, whose
accesses nothing orders before another agent's until the host takes the response (R58, R178; log 12, 15). -/
structure Response where
  status : Status
  cmd    : Instr
deriving DecidableEq, Repr

/-- One codec instance (R6, R25, R27, R153). -/
structure Codec where
  phase   : Phase
  /-- The captured command record (R25): `op` is the constructor. -/
  cmd     : Instr
  work    : Working
  /-- Responses produced and not yet taken by the host, oldest first (R26; log 15). -/
  pending : List Response
  /-- The model's own: the statuses the host has taken from this instance, oldest first (R183; log 3). -/
  taken   : List Status
deriving DecidableEq, Repr

/-- The configuration of the coordinate transform `advance` (R52). Its body is the environment's; `table` can hold any
function on finitely many arguments (log 5). -/
inductive Transform where
  /-- `(bx + dx, by + dy)`, the identity transform of R52 and the default of R8. -/
  | identity
  /-- `(bx + 7 - dx, by + dy)`, the mirrored transform of 95_test_vectors.md V-D6. -/
  | mirrored
  /-- `((baseX, baseY, dx, dy), (finalX, finalY))` entries, the first that matches; identity where none does. -/
  | table (entries : List ((Nat × Nat × Nat × Nat) × (Int × Int)))
deriving DecidableEq, Repr

/-- The configuration of the linear accessor `address` (R53; log 5). -/
inductive Accessor where
  /-- `y*GRID_W + x`, the default of R8. -/
  | rowMajor
  /-- `((x, y), linearIndex)` entries, the first that matches; row-major where none does. -/
  | table (entries : List ((Nat × Nat) × Nat))
deriving DecidableEq, Repr

/-- What is "not state but a parameter of every step" (R30, R8), held here so that every statement is about every
environment. No command changes any of it. That all instances have the same one is the model's choice (DESIGN CHOICE,
log 30). -/
structure Env where
  widths    : Widths
  pbufLen   : Nat
  gridW     : Nat
  gridH     : Nat
  transform : Transform
  accessor  : Accessor
deriving DecidableEq, Repr

/-- A byte memory as its listed cells (Host.Cell): addresses strictly rising, none holding what an unlisted address
reads as (`Memory.wf`). -/
abbrev Memory := List Host.Cell

/-- What the outside world can do (R182, R172, R153; log 3). -/
inductive HostAction where
  /-- Present a `CMD` word to the instance in turn (R72, R182). -/
  | issue (word : Nat)
  /-- Wait for the response of the instance in turn and take it (R26, R58). -/
  | takeResponse
  /-- Reset the instance in turn (R32, R170). -/
  | reset
  /-- Read the byte of `P` at an address (R182). -/
  | readPlanar (a : Nat)
  /-- Write a byte of `P` (R182). -/
  | writePlanar (a : Nat) (v : Byte)
  /-- Read the byte of `G` at a linear index (R182). -/
  | readPixel (i : Nat)
  /-- Write a byte of `G` (R182). -/
  | writePixel (i : Nat) (v : Byte)
  /-- Give `advance` another configuration (R179, R182). -/
  | reconfigure (t : Transform)
  /-- Let the next instance have its turn (R153; log 18). -/
  | turn
deriving DecidableEq, Repr

/-- The machine. -/
structure State where
  /-- The planar buffer `P` (R29, R41). -/
  p      : Memory
  /-- The pixel store `G` (R29, R42). -/
  g      : Memory
  /-- The environment's parameters and configuration (R8, R30): one for all instances, which R153 leaves open (DESIGN
  CHOICE, log 30). -/
  env    : Env
  /-- The codec instance whose turn it is (R27). -/
  codec  : Codec
  /-- The further instances that share `p` and `g` (R153). -/
  others : List Codec
  /-- The model's own: what the host does next, in order (R182; log 3). -/
  host   : List HostAction
  /-- The model's own: the bytes the host has read, oldest first (log 3). -/
  seen   : List Byte
  /-- The model's own: how many free values have been drawn (log 21). -/
  draws  : Nat
deriving DecidableEq, Repr

/-- Why the machine stops with a fault. The spec's own faults, `OutOfRange` and `InvalidDimensions`, are no stops: they
are responses (R146). -/
inductive Fault where
  /-- Raised by a host access to an address at or above `PBUF_LEN`: `P` has no such byte (R41). Safe (log 16). -/
  | noPlanarByte
  /-- Raised by a host access to an index at or above `GRID_LEN`: `G` has no such byte (R42). Safe (log 16). -/
  | noPixelByte
deriving DecidableEq, Repr

/-- Why the machine gives a step no meaning. -/
inductive Refusal where
  /-- Raised by `exec` for an instruction that has no meaning yet. No arm raises it. Safe. -/
  | notModelled (mnemonic : String)
  /-- Raised when two unordered accesses to one byte are about to coexist and one is a write (R59, U3). Safe (log 12). -/
  | dataRace
  /-- Raised by reconfiguring `advance` while a command is outstanding (R179, U9). Safe (log 13). -/
  | environmentMoved
  /-- Raised by a command whose `address` gives an index at or above `GRID_LEN` for an in-grid coordinate: the
  contract of R53 is broken and no byte is named (U5). Safe (log 10). -/
  | accessorContract
  /-- Raised by issuing a number that is no `CMD` word: it does not fit the command input (R72). Safe (log 17). -/
  | notACommandWord
deriving DecidableEq, Repr

/-- The working values at reset: R32 leaves them unspecified; zero is a DESIGN CHOICE (log 7). -/
def Working.reset : Working := ⟨0, 0, 0, 0, 0, 0, 0⟩

/-- An instance at reset: `IDLE`, no response pending (R32, R170). The captured fields are unspecified; zero is a DESIGN
CHOICE (log 7). -/
def Codec.reset : Codec := ⟨.idle, .decode ⟨0, 0, 0, 0, 0⟩, .reset, [], []⟩

/-- The environment at reset: the defaults of R8 for the widths and the two functions; the sizes have no default and are
a DESIGN CHOICE (log 4). -/
def Env.reset : Env := ⟨⟨Config.addrW, Config.coordW⟩, 2 ^ Config.addrW, 2 ^ Config.coordW, 2 ^ Config.coordW,
  .identity, .rowMajor⟩

/-- The machine right after reset (R32, R170, R171): one idle instance, no host action, nothing listed in either
memory. -/
def State.reset : State := ⟨[], [], .reset, .reset, [], [], [], 0⟩

end Sys2Proof.Machine
end

