-- ==== Sys2Proof/Machine/Operands.lean ====
section
/-! DEFINITION. Where a command's operands lie: the plane offset table, planar addresses, the environment functions
`advance` and `address`, linear indices of tile pixels, and the bit moves between a plane byte and a pixel. -/

namespace Sys2Proof.Machine

/-- `0..7` in ascending order: the range of `x`, `y` and `b` (R22, R129). -/
def lanes : List Lane := [0, 1, 2, 3, 4, 5, 6, 7]

/-- All `(x, y)` in the loop order of R101: `x` outer, `y` inner. -/
def tileCoords : List (Lane × Lane) := lanes.flatMap fun x => lanes.map fun y => (x, y)

/-- `planeOffset` (R28). -/
def planeOffset (b : Lane) : Nat :=
  [0x00, 0x01, 0x10, 0x11, 0x20, 0x21, 0x30, 0x31].getD b.val 0

/-- `pa(b, y)`, in unbounded naturals (R14, R46, R47). -/
def planarAddr (f : Fields) (b y : Lane) : Nat :=
  f.tileAddr + planeOffset b + Config.rowStride * y.val

/-- The footprint: `tile_addr .. tile_addr + 63` (R16, R46). -/
def footprint (f : Fields) : List Nat := (List.range Config.tileBytes).map (f.tileAddr + ·)

/-- The identity transform (R52). -/
def identityTransform (bx by' dx dy : Nat) : Int × Int := (bx + dx, by' + dy)

/-- The mirrored transform of 95_test_vectors.md V-D6. -/
def mirroredTransform (bx by' dx dy : Nat) : Int × Int := (bx + 7 - dx, by' + dy)

/-- `advance(baseX, baseY, dx, dy)` under a configuration: integers, possibly outside the grid or negative (R52). -/
def Transform.apply : Transform → Nat → Nat → Nat → Nat → Int × Int
  | .identity, bx, by', dx, dy => identityTransform bx by' dx dy
  | .mirrored, bx, by', dx, dy => mirroredTransform bx by' dx dy
  | .table entries, bx, by', dx, dy => (entries.lookup (bx, by', dx, dy)).getD (identityTransform bx by' dx dy)

/-- `GRID_LEN = GRID_W * GRID_H` (R8). -/
def Env.gridLen (e : Env) : Nat := e.gridW * e.gridH

/-- The row-major accessor (R53). -/
def Env.rowMajorIndex (e : Env) (x y : Nat) : Nat := y * e.gridW + x

/-- `address(x, y)` under the environment's configuration (R53). -/
def Env.address (e : Env) (x y : Nat) : Nat :=
  match e.accessor with
  | .rowMajor => e.rowMajorIndex x y
  | .table entries => (entries.lookup (x, y)).getD (e.rowMajorIndex x y)

/-- `advance(cmd.base_x, cmd.base_y, x, y)` (R51): the coordinate of tile pixel `(x, y)`. -/
def Env.coord (e : Env) (f : Fields) (x y : Lane) : Int × Int :=
  e.transform.apply f.baseX f.baseY x.val y.val

/-- `0 <= fx < GRID_W` and `0 <= fy < GRID_H` (R54). -/
def Env.inGrid (e : Env) (c : Int × Int) : Bool :=
  decide (0 ≤ c.1) && decide (c.1 < e.gridW) && decide (0 ≤ c.2) && decide (c.2 < e.gridH)

/-- `pix(x, y)`, the linear index of tile pixel `(x, y)` (R14, R51). Used only where the coordinate is in the grid. -/
def Env.pix (e : Env) (f : Fields) (x y : Lane) : Nat :=
  e.address (e.coord f x y).1.toNat (e.coord f x y).2.toNat

/-- The image: the 64 linear indices of a command (R16), in the order of `tileCoords`. -/
def Env.image (e : Env) (f : Fields) : List Nat := tileCoords.map fun c => e.pix f c.1 c.2

/-- The in-grid condition of R54, over all 64 pixels. -/
def Env.gridOk (e : Env) (f : Fields) : Bool := tileCoords.all fun c => e.inGrid (e.coord f c.1 c.2)

/-- Every index of the image names a byte of `G`, as the contract of `address` says (R53). -/
def Env.imageInStore (e : Env) (f : Fields) : Bool := (e.image f).all fun i => decide (i < e.gridLen)

/-- Column `x` of a plane byte, normalised to bit 0: `(cur >> (7 - x)) & 1` (R45, R100, R121). -/
def columnBit (cur : Byte) (x : Lane) : Byte := (cur >>> (7 - x.val)) &&& 1

/-- Plane `b` of a pixel, normalised to bit 0: `(pixel >> b) & 1` (R48, R110, R121). -/
def planeBit (pixel : Byte) (b : Lane) : Byte := (pixel >>> b.val) &&& 1

/-- A pixel from its row's plane bytes: the inner loop of R100. -/
def assemblePixel (plane : Lane → Byte) (x : Lane) : Byte :=
  lanes.foldl (fun v b => v ||| (columnBit (plane b) x <<< b.val)) 0

/-- A plane byte from its row's pixels: the inner loop of R110. -/
def assemblePlane (pixel : Lane → Byte) (b : Lane) : Byte :=
  lanes.foldl (fun v x => v ||| (planeBit (pixel x) b <<< (7 - x.val))) 0

/-- `0xFF ^ (1 << (7 - x))`: all columns but `x` (R22, R111). -/
def columnMask (x : Lane) : Byte := 0xFF ^^^ ((1 : Byte) <<< (7 - x.val))

/-- One step of the access sequence of ENCODE on a plane byte: column `x` is replaced by bit `b` of the pixel, the other
columns stay (R111, R126). -/
def replaceColumn (cur : Byte) (pixel : Byte) (x b : Lane) : Byte :=
  (cur &&& columnMask x) ||| (planeBit pixel b <<< (7 - x.val))

end Sys2Proof.Machine
end

