-- ==== Sys2Proof/Machine/Flags.lean ====
section
/-! DEFINITION. There are no flags (R24): "the only outcome indication is the per-command status". This file holds the
`status` codes and the checks that decide it. -/

namespace Sys2Proof.Machine

/-- The 2-bit `status` of the response format `RSP` (R78, R143). -/
def Status.code : Status → BitVec 2
  | .ok => 0
  | .outOfRange => 1
  | .invalidDimensions => 2

/-- The status a fault kind ends a command with (R12, R143). -/
def CodecFault.status : CodecFault → Status
  | .outOfRange => .outOfRange
  | .invalidDimensions => .invalidDimensions

/-- The checks of a command in the order of R144: dimensions (R142), planar range (R141 a), grid range (R141 b). `none`
where it passes all of them. -/
def Env.check (e : Env) (f : Fields) : Option CodecFault :=
  if f.width ≠ Config.tileSide ∨ f.height ≠ Config.tileSide then some .invalidDimensions
  else if f.tileAddr + Config.tileBytes > e.pbufLen then some .outOfRange
  else if e.gridOk f then none
  else some .outOfRange

end Sys2Proof.Machine
end

