-- ==== Sys2Proof/Machine/Ops.lean ====
section
/-! DEFINITION. The named operations: byte reads and writes of a memory in canonical form, the response that ends a
command, and raising a fault. -/

namespace Sys2Proof.Machine

/-- What a byte that no entry lists reads as. DESIGN CHOICE (log 6): the spec leaves the launch contents of both
memories to the host (R171, U14). -/
def Memory.unlisted : Byte := 0

/-- `PRead` and `GRead`: one byte, no side effect (R11, R55). -/
def Memory.read : Memory → Nat → Byte
  | [], _ => Memory.unlisted
  | (k, v) :: m, a => if a = k then v else Memory.read m a

/-- `PWrite` and `GWrite`: one byte (R11). Keeps the canonical form. -/
def Memory.write : Memory → Nat → Byte → Memory
  | [], a, v => if v = Memory.unlisted then [] else [(a, v)]
  | (k, w) :: m, a, v =>
    if a < k then (if v = Memory.unlisted then (k, w) :: m else (a, v) :: (k, w) :: m)
    else if a = k then (if v = Memory.unlisted then m else (k, v) :: m)
    else (k, w) :: Memory.write m a v

/-- Single-byte writes, one after the other. -/
def Memory.writeAll (m : Memory) (cells : List Host.Cell) : Memory :=
  cells.foldl (fun m c => m.write c.1 c.2) m

/-- The canonical form: addresses strictly rising, no entry equal to what an unlisted address reads as. -/
def Memory.wf : Memory → Bool
  | [] => true
  | (k, v) :: m => m.all (fun c => decide (k < c.1)) && decide (v ≠ Memory.unlisted) && Memory.wf m

/-- Every listed address is below `n`: the memory has `n` bytes (R41, R42). -/
def Memory.below (m : Memory) (n : Nat) : Bool := m.all fun c => decide (c.1 < n)

/-- Other contents of `P`. -/
def State.withP (s : State) (p : Memory) : State := { s with p := p }

/-- Other contents of `G`. -/
def State.withG (s : State) (g : Memory) : State := { s with g := g }

/-- Captured fields that nothing specifies (R25, R32, U7): free values of draw `n`, each of the width R25 gives it. -/
def unspecifiedFields (ws : Widths) (n : Nat) : Fields where
  width    := BitVec.ofNat 8 (Config.idleValue n 1)
  height   := BitVec.ofNat 8 (Config.idleValue n 2)
  tileAddr := Config.idleValue n 3 % 2 ^ ws.addrW
  baseX    := Config.idleValue n 4 % 2 ^ ws.coordW
  baseY    := Config.idleValue n 5 % 2 ^ ws.coordW

/-- A captured command that nothing specifies (R25, R32, U7). -/
def unspecifiedCommand (ws : Widths) (n : Nat) : Instr :=
  if Config.idleValue n 0 % 2 = 0 then .decode (unspecifiedFields ws n) else .encode (unspecifiedFields ws n)

/-- Working values that nothing specifies (R22, R32, U7). -/
def unspecifiedWorking (n : Nat) : Working where
  x     := Fin.ofNat 8 (Config.idleValue n 6)
  y     := Fin.ofNat 8 (Config.idleValue n 7)
  b     := Fin.ofNat 8 (Config.idleValue n 8)
  pixel := BitVec.ofNat 8 (Config.idleValue n 9)
  mask  := BitVec.ofNat 8 (Config.idleValue n 10)
  cur   := BitVec.ofNat 8 (Config.idleValue n 11)
  bit   := BitVec.ofNat 1 (Config.idleValue n 12)

/-- An instance that has just gone back to `IDLE` (R27): nothing it captured or worked with has a specified value. -/
def Codec.toIdle (c : Codec) (ws : Widths) (n : Nat) : Codec :=
  { c with phase := .idle, cmd := unspecifiedCommand ws n, work := unspecifiedWorking n }

/-- The one response of an accepted command: the block goes back to `IDLE` (R26, R27). -/
def State.respond (s : State) (i : Instr) (st : Status) : State :=
  { s with
    codec := { s.codec.toIdle s.env.widths s.draws with pending := s.codec.pending ++ [⟨st, i⟩] }
    draws := s.draws + 1 }

/-- Taking a fault (R12, R146): the response carries its status, `P` and `G` stay, the block goes back to `IDLE`; nothing is
saved and control goes nowhere. There is no return from it (R147): the next command simply runs. -/
def State.raise (s : State) (i : Instr) (k : CodecFault) : State := s.respond i k.status

/-- Acceptance: the command is captured, once, and the block is `BUSY` (R25, R27, R64). -/
def State.accept (s : State) (i : Instr) : State :=
  { s with codec := { s.codec with phase := .busy, cmd := i } }

end Sys2Proof.Machine
end

