-- ==== Sys2Proof/Machine/Pack.lean ====
section
/-! DEFINITION. ENCODE, the bitplane packer (41_encode.md), at the transaction level. -/

namespace Sys2Proof.Machine

/-- The byte ENCODE gives plane `b`, row `y` (R110). -/
def Env.packedByte (e : Env) (f : Fields) (g : Memory) (b y : Lane) : Byte :=
  assemblePlane (fun x => g.read (e.pix f x y)) b

/-- The 64 writes of `P` (R110). -/
def Env.packedCells (e : Env) (f : Fields) (g : Memory) : List Host.Cell :=
  tileCoords.map fun c => (planarAddr f c.1 c.2, e.packedByte f g c.1 c.2)

/-- ENCODE (R110): every check before any effect (R145), then 64 bytes of `P`; `G` is only read. Where `address` names no
byte of `G` the contract of R53 is broken and the command has no meaning (U5). -/
def execEncode (f : Fields) (s : State) : Host.Outcome State Fault Refusal :=
  match s.env.check f with
  | some k => .next (s.raise (.encode f) k)
  | none =>
    if s.env.imageInStore f then
      .next ((s.withP (s.p.writeAll (s.env.packedCells f s.g))).respond (.encode f) .ok)
    else .refused .accessorContract

end Sys2Proof.Machine
end

