-- ==== Sys2Proof/Machine/Unpack.lean ====
section
/-! DEFINITION. DECODE, the bitplane unpacker (40_decode.md), at the transaction level. -/

namespace Sys2Proof.Machine

/-- The value DECODE gives tile pixel `(x, y)` (R100). -/
def unpackedPixel (p : Memory) (f : Fields) (x y : Lane) : Byte :=
  assemblePixel (fun b => p.read (planarAddr f b y)) x

/-- The byte DECODE leaves at `pix(x, y)`: the pixel's value, or a free value where another pixel of the tile targets the
same index (R100 corner case (f), U4; DESIGN CHOICE, log 9). -/
def Env.unpackedByte (e : Env) (f : Fields) (p : Memory) (draw : Nat) (x y : Lane) : Byte :=
  if (e.image f).count (e.pix f x y) = 1 then unpackedPixel p f x y
  else Config.contestedByte draw (e.pix f x y)

/-- The 64 writes of `G` (R100). -/
def Env.unpackedCells (e : Env) (f : Fields) (p : Memory) (draw : Nat) : List Host.Cell :=
  tileCoords.map fun c => (e.pix f c.1 c.2, e.unpackedByte f p draw c.1 c.2)

/-- DECODE (R100): every check before any effect (R145), then 64 pixels of `G`; `P` is only read. Where `address` names no
byte of `G` the contract of R53 is broken and the command has no meaning (U5). -/
def execDecode (f : Fields) (s : State) : Host.Outcome State Fault Refusal :=
  match s.env.check f with
  | some k => .next (s.raise (.decode f) k)
  | none =>
    if s.env.imageInStore f then
      .next ((s.withG (s.g.writeAll (s.env.unpackedCells f s.p s.draws))).respond (.decode f) .ok)
    else .refused .accessorContract

end Sys2Proof.Machine
end

