-- ==== Sys2Proof/Machine/Dispatch.lean ====
section
/-! DEFINITION. One arm for each command, the rows of `spec/opcode_table.json`: the command run to its response by the
instance in turn. -/

namespace Sys2Proof.Machine

def exec (i : Instr) (s : State) : Host.Outcome State Fault Refusal :=
  match i with
  | .decode f => Sys2Proof.Machine.execDecode f s
  | .encode f => Sys2Proof.Machine.execEncode f s

end Sys2Proof.Machine
end

