-- ==== Sys2Proof/Machine/HostPort.lean ====
section
/-! DEFINITION. The host interface (R182) and what happens between commands: acceptance, data races, taking a response, host
accesses, reset of an idle and of a running instance, and the turn of the next instance. -/

namespace Sys2Proof.Machine

/-- The bytes an agent reads and writes, in each space. -/
structure AccessSet where
  pReads  : List Nat
  pWrites : List Nat
  gReads  : List Nat
  gWrites : List Nat
deriving DecidableEq, Repr

/-- No access. -/
def AccessSet.empty : AccessSet := ⟨[], [], [], []⟩

/-- The two lists share an element. -/
def meets (l k : List Nat) : Bool := l.any fun n => decide (n ∈ k)

/-- Some byte is accessed by both and written by at least one (R59). -/
def AccessSet.races (a b : AccessSet) : Bool :=
  meets a.pWrites (b.pReads ++ b.pWrites) || meets b.pWrites (a.pReads ++ a.pWrites)
    || meets a.gWrites (b.gReads ++ b.gWrites) || meets b.gWrites (a.gReads ++ a.gWrites)

/-- What a command accesses (R43); nothing, if it fails a check (R145). -/
def Env.accesses (e : Env) (i : Instr) : AccessSet :=
  match e.check i.fields with
  | some _ => .empty
  | none =>
    match i with
    | .decode f => ⟨footprint f, [], [], e.image f⟩
    | .encode f => ⟨footprint f, footprint f, e.image f, []⟩

/-- The commands of an instance that nothing orders before what another agent does now: the one it runs, and those whose
responses the host has not taken (R58, R178). -/
def Codec.outstanding (c : Codec) : List Instr :=
  match c.phase with
  | .busy => c.cmd :: c.pending.map Response.cmd
  | .idle => c.pending.map Response.cmd

/-- What a host action accesses (R62, R177). -/
def HostAction.accesses : HostAction → AccessSet
  | .readPlanar a => ⟨[a], [], [], []⟩
  | .writePlanar a _ => ⟨[], [a], [], []⟩
  | .readPixel i => ⟨[], [], [i], []⟩
  | .writePixel i _ => ⟨[], [], [], [i]⟩
  | _ => .empty

/-- All instances. -/
def State.codecs (s : State) : List Codec := s.codec :: s.others

/-- Accesses that race with an outstanding command of some instance of a list (R59 to R62, R178). -/
def racesWith (e : Env) (a : AccessSet) (codecs : List Codec) : Bool :=
  codecs.any fun c => c.outstanding.any fun j => a.races (e.accesses j)

/-- No instance runs a command and the host has taken every response: "between commands" (R182; DESIGN CHOICE: log 13 on
untaken responses, log 30 on the commands of every instance). -/
def State.betweenCommands (s : State) : Bool := s.codecs.all fun c => c.outstanding.isEmpty

/-- The host takes a response from its place at the head of the queue (R26, R58). -/
def State.take (s : State) (r : Response) (rest : List Response) : State :=
  { s with codec := { s.codec with pending := rest, taken := s.codec.taken ++ [r.status] } }

/-- An instance after its reset: `IDLE`, nothing captured, nothing pending (R32, R170). The host keeps its record. -/
def State.idleAfterReset (s : State) : State :=
  { s with codec := { s.codec.toIdle s.env.widths s.draws with pending := [] }, draws := s.draws + 1 }

/-- A footprint byte of an abandoned ENCODE: its value after some number of columns of the access sequence, freely chosen
(R32, R112, U6; log 11). -/
def Env.abandonedPlane (e : Env) (f : Fields) (p g : Memory) (draw : Nat) (b y : Lane) : Byte :=
  (lanes.take (Config.abandonedChoice draw (planarAddr f b y) % 9)).foldl
    (fun cur x => replaceColumn cur (g.read (e.pix f x y)) x b) (p.read (planarAddr f b y))

/-- The values an abandoned DECODE may leave at an index: its old value, or a pixel the access sequence writes there
(R32, U6). -/
def Env.abandonedPixels (e : Env) (f : Fields) (p g : Memory) (i : Nat) : List Byte :=
  g.read i :: (tileCoords.filter fun c => decide (e.pix f c.1 c.2 = i)).map fun c => unpackedPixel p f c.1 c.2

/-- An image byte of an abandoned DECODE, freely chosen among them (R32, U6; log 11). -/
def Env.abandonedPixel (e : Env) (f : Fields) (p g : Memory) (draw i : Nat) : Byte :=
  let values := e.abandonedPixels f p g i
  values.getD (Config.abandonedChoice draw i % values.length) (g.read i)

/-- The memories after a reset has abandoned a command that passed its checks (R32, R171). -/
def State.abandon (s : State) (i : Instr) : State :=
  match i with
  | .decode f =>
    s.withG (s.g.writeAll ((s.env.image f).map fun n => (n, s.env.abandonedPixel f s.p s.g s.draws n)))
  | .encode f =>
    s.withP (s.p.writeAll (tileCoords.map fun c =>
      (planarAddr f c.1 c.2, s.env.abandonedPlane f s.p s.g s.draws c.1 c.2)))

/-- Reset of the instance in turn (R32, R170, R171): while `IDLE`, or running a command that fails its checks, neither
memory changes; else the command is abandoned with no response. -/
def State.resetCodec (s : State) : Host.Outcome State Fault Refusal :=
  match s.codec.phase with
  | .idle => .next s.idleAfterReset
  | .busy =>
    match s.env.check s.codec.cmd.fields with
    | some _ => .next s.idleAfterReset
    | none =>
      if s.env.imageInStore s.codec.cmd.fields then .next (s.abandon s.codec.cmd).idleAfterReset
      else .refused .accessorContract

/-- The running command of the instance in turn runs to its response (R27, R58). -/
def State.complete (s : State) : Host.Outcome State Fault Refusal := exec s.codec.cmd s

/-- The first `BUSY` instance of a list, with those before it and those after it. -/
def splitBusy : List Codec → Option (List Codec × Codec × List Codec)
  | [] => none
  | c :: cs =>
    match c.phase with
    | .busy => some ([], c, cs)
    | .idle => (splitBusy cs).map fun (pre, d, post) => (c :: pre, d, post)

/-- The running command of another instance runs to its response, the turn staying where it is (R27, R153; log 18). -/
def State.completeBeside (s : State) (pre : List Codec) (c : Codec) (post : List Codec) :
    Host.Outcome State Fault Refusal :=
  match exec c.cmd { s with codec := c } with
  | .next t => .next { t with codec := s.codec, others := pre ++ t.codec :: post }
  | .fault r => .fault r
  | .refused r => .refused r

/-- Presenting a word to an `IDLE` instance: it is decoded and captured (R25, R27, R73), unless its accesses would race with
an outstanding command of another instance (R60 to R62, R178, U3). -/
def State.present (s : State) (w : Nat) : Host.Outcome State Fault Refusal :=
  match decode s.env.widths w with
  | .error _ => .refused .notACommandWord
  | .ok i => if racesWith s.env (s.env.accesses i) s.others then .refused .dataRace else .next (s.accept i)

/-- The next instance has its turn (R153; log 18). -/
def State.turn (s : State) : State :=
  match s.others with
  | [] => s
  | c :: cs => { s with codec := c, others := cs ++ [s.codec] }

/-- A host action that needs no waiting, already taken from the head of `host`. A host access to a byte that does not exist
stops (R41, R42); one that races with an outstanding command is refused (R62, R177, R178, U3). -/
def State.act (s : State) (a : HostAction) : Host.Outcome State Fault Refusal :=
  if racesWith s.env a.accesses s.codecs then .refused .dataRace
  else match a with
  | .issue w => s.present w
  | .takeResponse =>
    match s.codec.pending with
    | [] => .next s
    | r :: rest => .next (s.take r rest)
  | .reset => s.resetCodec
  | .readPlanar n => if n < s.env.pbufLen then .next { s with seen := s.seen ++ [s.p.read n] } else .fault .noPlanarByte
  | .writePlanar n v => if n < s.env.pbufLen then .next (s.withP (s.p.write n v)) else .fault .noPlanarByte
  | .readPixel n => if n < s.env.gridLen then .next { s with seen := s.seen ++ [s.g.read n] } else .fault .noPixelByte
  | .writePixel n v => if n < s.env.gridLen then .next (s.withG (s.g.write n v)) else .fault .noPixelByte
  | .reconfigure t =>
    if s.betweenCommands then .next { s with env := { s.env with transform := t } } else .refused .environmentMoved
  | .turn => .next s.turn

/-- The host waits at this action: to issue while the instance is `BUSY` (R27), or to take a response that is not there yet
(R58). -/
def State.waits (s : State) (a : HostAction) : Bool :=
  match a with
  | .issue _ => decide (s.codec.phase = .busy)
  | .takeResponse => decide (s.codec.pending = [])
  | _ => false

/-- What happens while the host does nothing: a running command completes, that of the instance in turn first and then
that of each other instance, so that every accepted command ends in its response (R27, R129, R180; log 18); idle blocks do
nothing (R23, R170). -/
def State.await (s : State) : Host.Outcome State Fault Refusal :=
  match s.codec.phase with
  | .busy => s.complete
  | .idle =>
    match splitBusy s.others with
    | some (pre, c, post) => s.completeBeside pre c post
    | none => .next s

/-- One step of the system: the host's next action, or a running command's completion where the host waits or has
nothing to do (R27, R58, R183; log 1, 3). -/
def State.advance (s : State) : Host.Outcome State Fault Refusal :=
  match s.host with
  | [] => s.await
  | a :: rest => if s.waits a then s.await else { s with host := rest }.act a

/-- The instance in turn has captured the command of a word and the host only waits, so that the next step runs it. A
number that is no word stands at the command input instead. -/
def State.placeWord (s : State) (w : Nat) : State :=
  match decode s.env.widths w with
  | .ok i => { s.accept i with host := [] }
  | .error _ => { s with host := [.issue w], codec := { s.codec with phase := .idle } }

end Sys2Proof.Machine
end

