-- ==== Sys2Proof/Machine/Access.lean ====
section
/-! DEFINITION. The second level of description (R17): the single-byte accesses of a command in the loop order of the
reference access sequence (R101, R111), with the working values of R22. The step takes the transaction level; that the two
levels agree (R120) is a statement. -/

namespace Sys2Proof.Machine

/-- One single-byte access (R11, R44). -/
inductive Access where
  | pRead (a : Nat)
  | pWrite (a : Nat)
  | gRead (i : Nat)
  | gWrite (i : Nat)
deriving DecidableEq, Repr

/-- A command in the middle of its access sequence: both memories, the working values, and the accesses made so far, the
latest first. -/
structure AccessRun where
  p     : Memory
  g     : Memory
  work  : Working
  trace : List Access
deriving DecidableEq, Repr

/-- Where the access sequence of the captured command starts. -/
def State.accessRun (s : State) : AccessRun := ⟨s.p, s.g, s.codec.work, []⟩

/-- `cur = PRead(a)` (R101, R111). -/
def AccessRun.pRead (r : AccessRun) (a : Nat) : AccessRun :=
  { r with work := { r.work with cur := r.p.read a }, trace := .pRead a :: r.trace }

/-- `PWrite(a, cur)` (R111). -/
def AccessRun.pWrite (r : AccessRun) (a : Nat) : AccessRun :=
  { r with p := r.p.write a r.work.cur, trace := .pWrite a :: r.trace }

/-- `pixel = GRead(i)` (R111). -/
def AccessRun.gRead (r : AccessRun) (i : Nat) : AccessRun :=
  { r with work := { r.work with pixel := r.g.read i }, trace := .gRead i :: r.trace }

/-- `GWrite(i, pixel)` (R101). -/
def AccessRun.gWrite (r : AccessRun) (i : Nat) : AccessRun :=
  { r with g := r.g.write i r.work.pixel, trace := .gWrite i :: r.trace }

/-- The position `(x, y, b)` inside the command (R22, R23). -/
def AccessRun.atLane (r : AccessRun) (x y b : Lane) : AccessRun :=
  { r with work := { r.work with x := x, y := y, b := b } }

/-- `(v & (1 << n)) >> n`, as the one-bit working value `bit` (R22, R121). -/
def extractBit (v : Byte) (n : Nat) : BitVec 1 := ((v &&& ((1 : Byte) <<< n)) >>> n).setWidth 1

/-- The innermost step of R101. -/
def AccessRun.unpackBit (f : Fields) (x y : Lane) (r : AccessRun) (b : Lane) : AccessRun :=
  let r := (r.atLane x y b).pRead (planarAddr f b y)
  let r := { r with work := { r.work with bit := extractBit r.work.cur (7 - x.val) } }
  { r with work := { r.work with pixel := r.work.pixel ||| (r.work.bit.setWidth 8 <<< b.val) } }

/-- One pixel of R101: eight reads of `P`, then one write of `G`. -/
def AccessRun.unpackPixel (e : Env) (f : Fields) (r : AccessRun) (c : Lane × Lane) : AccessRun :=
  let r := { r with work := { r.work with pixel := 0 } }
  (lanes.foldl (AccessRun.unpackBit f c.1 c.2) r).gWrite (e.pix f c.1 c.2)

/-- The access sequence of DECODE (R101). -/
def AccessRun.unpack (e : Env) (f : Fields) (r : AccessRun) : AccessRun :=
  tileCoords.foldl (AccessRun.unpackPixel e f) r

/-- The innermost step of R111: read, clear this column's bit, place the pixel's bit, write back. -/
def AccessRun.packBit (f : Fields) (x y : Lane) (r : AccessRun) (b : Lane) : AccessRun :=
  let r := (r.atLane x y b).pRead (planarAddr f b y)
  let r := { r with work := { r.work with cur := r.work.cur &&& r.work.mask, bit := extractBit r.work.pixel b.val } }
  let r := { r with work := { r.work with cur := r.work.cur ||| (r.work.bit.setWidth 8 <<< (7 - x.val)) } }
  r.pWrite (planarAddr f b y)

/-- One pixel of R111: one read of `G`, then eight read-modify-writes of `P`. -/
def AccessRun.packPixel (e : Env) (f : Fields) (x : Lane) (r : AccessRun) (y : Lane) : AccessRun :=
  lanes.foldl (AccessRun.packBit f x y) (r.gRead (e.pix f x y))

/-- One column of R111. -/
def AccessRun.packColumn (e : Env) (f : Fields) (r : AccessRun) (x : Lane) : AccessRun :=
  lanes.foldl (AccessRun.packPixel e f x) { r with work := { r.work with mask := columnMask x } }

/-- Some columns of R111, in the order given. -/
def AccessRun.packColumns (e : Env) (f : Fields) (columns : List Lane) (r : AccessRun) : AccessRun :=
  columns.foldl (AccessRun.packColumn e f) r

/-- The access sequence of ENCODE (R111). -/
def AccessRun.pack (e : Env) (f : Fields) (r : AccessRun) : AccessRun := r.packColumns e f lanes

end Sys2Proof.Machine
end

