-- ==== Sys2Proof/Safety.lean ====
section
/-! DEFINITION. The terms claims are stated in: what the host and the environment owe (R172 to R179), what "unchanged" means, the
invariants of the machine, and runs that never stop. -/

namespace Sys2Proof.Machine

/-- What a command needs so that it runs with no fault (R172 d): the tile's dimensions (R76), room for its footprint
(R66), and all 64 coordinates in the grid (R54). -/
def Env.Admits (e : Env) (f : Fields) : Prop :=
  f.width = 8 ∧ f.height = 8 ∧ f.tileAddr + 64 ≤ e.pbufLen ∧
  ∀ x y : Lane, 0 ≤ (e.coord f x y).1 ∧ (e.coord f x y).1 < e.gridW ∧
    0 ≤ (e.coord f x y).2 ∧ (e.coord f x y).2 < e.gridH

/-- The contract of `address` (R53): an in-grid coordinate has an index of `G`, and different ones have different
indices. -/
def Env.AddressContract (e : Env) : Prop :=
  (∀ x y, x < e.gridW → y < e.gridH → e.address x y < e.gridLen) ∧
  ∀ x y x' y', x < e.gridW → y < e.gridH → x' < e.gridW → y' < e.gridH →
    e.address x y = e.address x' y' → x = x' ∧ y = y'

/-- The contract of `advance` for one origin (R52 b): injective on the tile. -/
def Env.AdvanceContract (e : Env) (f : Fields) : Prop :=
  ∀ x y x' y' : Lane, e.coord f x y = e.coord f x' y' → x = x' ∧ y = y'

/-- Both contracts of the environment, for the origin of a command. -/
def Env.Contracts (e : Env) (f : Fields) : Prop := e.AddressContract ∧ e.AdvanceContract f

/-- The address lies in a command's footprint (R16). -/
def InFootprint (f : Fields) (a : Nat) : Prop := f.tileAddr ≤ a ∧ a < f.tileAddr + 64

/-- The linear index lies in a command's image (R16). -/
def Env.InImage (e : Env) (f : Fields) (i : Nat) : Prop := ∃ x y : Lane, e.pix f x y = i

/-- Every byte of the two memories is the same. -/
def SameBytes (m m' : Memory) : Prop := ∀ a, m'.read a = m.read a

/-- Nothing but the memories and the instance in turn differs, and of that instance the host's record is the same:
what every command leaves alone. -/
def KeepsSurroundings (s t : State) : Prop :=
  t.env = s.env ∧ t.others = s.others ∧ t.host = s.host ∧ t.seen = s.seen ∧ t.codec.taken = s.codec.taken

/-- The one response of a command, and the return to `IDLE` with it (R26, R27). -/
def Responds (i : Instr) (s t : State) (st : Status) : Prop :=
  t.codec.phase = .idle ∧ t.codec.pending = s.codec.pending ++ [⟨st, i⟩]

/-- The constraints of R8 on the parameters. -/
def Env.wf (e : Env) : Prop := 1 ≤ e.widths.addrW ∧ 1 ≤ e.widths.coordW ∧ e.pbufLen ≤ 2 ^ e.widths.addrW

/-- The invariant of the machine: the parameters are as R8 constrains them, both memories are in canonical form and inside
their spaces (R41, R42), and the captured fields of every instance, and of every command whose response is pending, have their
widths (R25, R71). -/
def State.Inv (s : State) : Prop :=
  s.env.wf ∧ s.p.wf ∧ s.g.wf ∧ s.p.below s.env.pbufLen ∧ s.g.below s.env.gridLen ∧
  ∀ c ∈ s.codecs, c.cmd.wf s.env.widths ∧ ∀ r ∈ c.pending, r.cmd.wf s.env.widths

/-- No outstanding commands of two instances race (R59, R178). -/
def State.RaceFree (s : State) : Prop :=
  s.codecs.Pairwise fun c d => ∀ i ∈ c.outstanding, ∀ j ∈ d.outstanding,
    (s.env.accesses i).races (s.env.accesses j) = false

/-- How many instances are `BUSY` (R27). -/
def State.inFlight (s : State) : Nat := s.codecs.countP fun c => decide (c.phase = .busy)

/-- A bound on the steps that the host's actions and the commands in flight can still take. -/
def State.workLeft (s : State) : Nat := 2 * s.host.length + s.inFlight

/-- What completion makes of an instance: one that was `BUSY` is `IDLE` with one more response, one that was `IDLE` is as it
was (R27). -/
def Codec.Finishes (c d : Codec) : Prop :=
  match c.phase with
  | .busy => d.phase = .idle ∧ d.taken = c.taken ∧ ∃ st, d.pending = c.pending ++ [⟨st, c.cmd⟩]
  | .idle => d = c

/-- `k` steps lead from one state to another with no stop between: a safe run. -/
def Runs : Nat → State → State → Prop
  | 0, s, t => t = s
  | k + 1, s, t => ∃ u, step s = .next u ∧ Runs k u t

end Sys2Proof.Machine
end

