-- ==== Sys2Proof/Certificates/Slice0/Obligations.lean ====
section
/-! DEFINITION. The statements for the provers, each a sentence about the machine. "R<n>" is the numbered rule of `spec/`
that a statement formalises or rests on; OBLIGATIONS.json says which of the two. -/

open Sys2Proof Sys2Proof.Machine

/-! ### Command words -/

/-- Every well-formed command has a word of the length of R72, and the decoder reads the command back from it. -/
def Obligations.EncodeThenDecodeGivesTheCommand : Prop :=
  ∀ (ws : Widths) (i : Instr), i.wf ws → encode ws i < 2 ^ cmdBits ws ∧ decode ws (encode ws i) = .ok i

/-- R73, and the mask of R76: every word is exactly one well-formed command, bit 0 alone selects which, and it is legal where
the `width` and `height` bits are both 8. -/
def Obligations.EveryWordIsOneCommand : Prop :=
  ∀ (ws : Widths) (w : Nat), w < 2 ^ cmdBits ws →
    ∃ i : Instr, decode ws w = .ok i ∧ i.wf ws ∧ encode ws i = w ∧
      (w &&& 0x1 = 0x0 → ∃ f, i = .decode f) ∧ (w &&& 0x1 = 0x1 → ∃ f, i = .encode f) ∧
      (i.fields.legal = true ↔ w &&& 0x1FFFE = 0x01010)

/-- The model's choice (log 17): a number that does not fit the `CMD` of the widths (R72) is no command. The decoder refuses it by
name, and so does the step of an `IDLE` instance that is issued it. -/
def Obligations.WideNumberIsNoCommand : Prop :=
  (∀ (ws : Widths) (w : Nat), 2 ^ cmdBits ws ≤ w → decode ws w = .error .wordTooWide) ∧
  ∀ (s : State) (w : Nat) (rest : List HostAction), 2 ^ cmdBits s.env.widths ≤ w → s.codec.phase = .idle →
    s.host = .issue w :: rest → step s = .refused .notACommandWord

/-- R83 and the table of 95_test_vectors.md section 4: words written out there decode to their commands. -/
def Obligations.WorkedWordsDecode : Prop :=
  decode tableWidths 0x000000000000000001010 = .ok (.decode ⟨8, 8, 0, 0, 0⟩) ∧
  decode tableWidths 0x000000000000000001011 = .ok (.encode ⟨8, 8, 0, 0, 0⟩) ∧
  decode tableWidths 0x000000010000000801010 = .ok (.decode ⟨8, 8, 64, 8, 0⟩) ∧
  decode tableWidths 0x000100000000000801011 = .ok (.encode ⟨8, 8, 0x40, 0, 8⟩) ∧
  decode tableWidths 0x00000000000000000100e = .ok (.decode ⟨7, 8, 0, 0, 0⟩) ∧
  decode tableWidths 0x000000001ffffff821010 = .ok (.decode ⟨8, 8, 0xFFFFFFC1, 0, 0⟩)

/-- R75, R81: on a listing line the omitted `width` and `height` are 8, and a line whose operands fit their fields has those
fields. -/
def Obligations.OmittedDimensionsAreEight : Prop :=
  ∀ (ws : Widths) (a x y : Nat), operandsOfLine ws [a, x, y] = operandsOfLine ws [a, x, y, 8, 8] ∧
    (Fields.wf ws ⟨8, 8, a, x, y⟩ = true → operandsOfLine ws [a, x, y] = some ⟨8, 8, a, x, y⟩)

/-! ### The format -/

/-- R28: the plane offset table; and the closed form of its entries, which R28 marks as its own inference ("[derived: by
inspection of the eight values]"). -/
def Obligations.PlaneOffsetTable : Prop :=
  lanes.map planeOffset = [0x00, 0x01, 0x10, 0x11, 0x20, 0x21, 0x30, 0x31] ∧
  ∀ b : Lane, planeOffset b = 16 * (b.val >>> 1) + (b.val &&& 1)

/-- R46 (partly an inference the spec marks as derived): the 64 plane bytes of a tile are its 64 contiguous bytes, once
each; byte `k` is plane `2*(k >> 4) + (k & 1)`, row `(k >> 1) & 7`. -/
def Obligations.TileIs64ContiguousBytes : Prop :=
  ∀ f : Fields,
    (∀ b y : Lane, planarAddr f b y = f.tileAddr + planeOffset b + 2 * y.val ∧ InFootprint f (planarAddr f b y)) ∧
    (∀ b y b' y' : Lane, planarAddr f b y = planarAddr f b' y' → b = b' ∧ y = y') ∧
    ∀ k, k < 64 → ∃ b y : Lane, b.val = 2 * (k >>> 4) + (k &&& 1) ∧ y.val = (k >>> 1) &&& 7 ∧
      planarAddr f b y = f.tileAddr + k

/-! ### DECODE -/

/-- R100 where the checks pass and the contracts hold: DECODE completes with `OK`; bit `b` of pixel `(x, y)` is bit `7 - x` of
the byte at `tile_addr + planeOffset[b] + 2*y` (R48); `P` and every other byte of `G` stay (R67). -/
def Obligations.DecodeUnpacksTheTile : Prop :=
  ∀ (f : Fields) (s : State), s.env.Admits f → s.env.Contracts f → s.g.wf →
    ∃ t, exec (.decode f) s = .next t ∧ Responds (.decode f) s t .ok ∧ KeepsSurroundings s t ∧ t.p = s.p ∧
      (∀ x y b : Lane, (t.g.read (s.env.pix f x y)).getLsbD b.val =
        (s.p.read (f.tileAddr + planeOffset b + 2 * y.val)).getLsbD (7 - x.val)) ∧
      ∀ i, ¬ s.env.InImage f i → t.g.read i = s.g.read i

/-- The frame of DECODE, in every case in which it answers a next state, a fault included: it never writes `P` (R43), leaves
every byte of `G` outside its image alone (R67), and touches no other instance and nothing of the host's. -/
def Obligations.DecodeFrame : Prop :=
  ∀ (f : Fields) (s t : State), exec (.decode f) s = .next t →
    t.p = s.p ∧ (∀ i, ¬ s.env.InImage f i → t.g.read i = s.g.read i) ∧ KeepsSurroundings s t ∧
      ∃ st, Responds (.decode f) s t st

/-- R102 (an inference the spec marks as derived from R100): for a fixed `advance`, `address` and origin, the 64 pixels
depend on the 64 footprint bytes and on nothing else: not on where the tile lies, not on other bytes of `P`, the old `G`,
an earlier command or anything else of the state. -/
def Obligations.DecodeDependsOnFootprintOnly : Prop :=
  ∀ (f f' : Fields) (s s' t t' : State),
    s'.env.transform = s.env.transform → s'.env.accessor = s.env.accessor → s'.env.gridW = s.env.gridW →
    f'.baseX = f.baseX → f'.baseY = f.baseY →
    s.env.Admits f → s'.env.Admits f' → s.env.Contracts f → s'.env.Contracts f' → s.g.wf → s'.g.wf →
    (∀ k, k < 64 → s'.p.read (f'.tileAddr + k) = s.p.read (f.tileAddr + k)) →
    exec (.decode f) s = .next t → exec (.decode f') s' = .next t' →
    ∀ x y : Lane, s'.env.pix f' x y = s.env.pix f x y ∧ t'.g.read (s.env.pix f x y) = t.g.read (s.env.pix f x y)

/-- R125: a tile whose eight row-0 plane bytes are `0x80` and whose other 56 bytes are 0 decodes to pixel `(0,0) = 0xFF`
and 63 pixels of 0. -/
def Obligations.TopBitsDecodeToColumnZero : Prop :=
  ∀ (f : Fields) (s : State), s.env.Admits f → s.env.Contracts f → s.g.wf →
    (∀ b : Lane, s.p.read (f.tileAddr + planeOffset b) = 0x80) →
    (∀ a, InFootprint f a → (∀ b : Lane, a ≠ f.tileAddr + planeOffset b) → s.p.read a = 0) →
    ∃ t, exec (.decode f) s = .next t ∧ t.g.read (s.env.pix f 0 0) = 0xFF ∧
      ∀ x y : Lane, (x, y) ≠ (0, 0) → t.g.read (s.env.pix f x y) = 0

/-- The model's choice for a breach of R52 (log 9; 93_implementation_defined.md U4): a DECODE whose `advance` is not injective
still completes; each pixel that alone targets its index is the pixel of R100, and the bytes outside the image stay. -/
def Obligations.DecodeWithSharedPixelsCompletes : Prop :=
  ∀ (f : Fields) (s : State), s.env.Admits f → s.env.AddressContract → s.g.wf →
    ∃ t, exec (.decode f) s = .next t ∧ Responds (.decode f) s t .ok ∧ t.p = s.p ∧
      (∀ x y : Lane, (∀ x' y' : Lane, s.env.pix f x' y' = s.env.pix f x y → x' = x ∧ y' = y) →
        ∀ b : Lane, (t.g.read (s.env.pix f x y)).getLsbD b.val =
          (s.p.read (planarAddr f b y)).getLsbD (7 - x.val)) ∧
      ∀ i, ¬ s.env.InImage f i → t.g.read i = s.g.read i

/-! ### ENCODE -/

/-- R110 where the checks pass and `address` keeps its contract: ENCODE completes with `OK`; bit `7 - x` of the byte at
`tile_addr + planeOffset[b] + 2*y` is bit `b` of pixel `(x, y)` (R48); `G` and every other byte of `P` stay (R67). -/
def Obligations.EncodePacksTheTile : Prop :=
  ∀ (f : Fields) (s : State), s.env.Admits f → s.env.AddressContract → s.p.wf →
    ∃ t, exec (.encode f) s = .next t ∧ Responds (.encode f) s t .ok ∧ KeepsSurroundings s t ∧ t.g = s.g ∧
      (∀ x y b : Lane, (t.p.read (f.tileAddr + planeOffset b + 2 * y.val)).getLsbD (7 - x.val) =
        (s.g.read (s.env.pix f x y)).getLsbD b.val) ∧
      ∀ a, ¬ InFootprint f a → t.p.read a = s.p.read a

/-- The frame of ENCODE, in every case in which it answers a next state, a fault included: it never writes `G` (R43), leaves
every byte of `P` outside its footprint alone (R67), and touches no other instance and nothing of the host's. -/
def Obligations.EncodeFrame : Prop :=
  ∀ (f : Fields) (s t : State), exec (.encode f) s = .next t →
    t.g = s.g ∧ (∀ a, ¬ InFootprint f a → t.p.read a = s.p.read a) ∧ KeepsSurroundings s t ∧
      ∃ st, Responds (.encode f) s t st

/-- R113 (an inference the spec marks as derived from R110): for a fixed `advance`, `address` and origin, the 64 bytes
depend on the 64 pixels and on nothing else: not on where the tile lies, not on other pixels, the old `P`, an earlier
command or anything else of the state. -/
def Obligations.EncodeDependsOnImageOnly : Prop :=
  ∀ (f f' : Fields) (s s' t t' : State),
    s'.env.transform = s.env.transform → s'.env.accessor = s.env.accessor → s'.env.gridW = s.env.gridW →
    f'.baseX = f.baseX → f'.baseY = f.baseY →
    s.env.Admits f → s'.env.Admits f' → s.p.wf → s'.p.wf →
    (∀ x y : Lane, s'.g.read (s.env.pix f x y) = s.g.read (s.env.pix f x y)) →
    exec (.encode f) s = .next t → exec (.encode f') s' = .next t' →
    ∀ k, k < 64 → t'.p.read (f'.tileAddr + k) = t.p.read (f.tileAddr + k)

/-! ### Both directions -/

/-- R124 (an inference the spec marks as derived from R48): flipping bit `k` of the byte of plane `b`, row `y` changes the
DECODE result in tile pixel `(7 - k, y)` alone, and there in bit `b` alone; flipping bit `b` of pixel `(x, y)` changes the
ENCODE result in the byte at `pa(b, y)` alone, and there in bit `7 - x` alone. -/
def Obligations.OneBitFlipMovesOneBit : Prop :=
  (∀ (f : Fields) (s s' t t' : State) (b y k : Lane), s.env.Admits f → s.env.Contracts f → s.p.wf → s.g.wf →
    s' = { s with p := s.p.write (planarAddr f b y) (s.p.read (planarAddr f b y) ^^^ ((1 : Byte) <<< k.val)) } →
    exec (.decode f) s = .next t → exec (.decode f) s' = .next t' →
    t'.g.read (s.env.pix f k.rev y) = t.g.read (s.env.pix f k.rev y) ^^^ ((1 : Byte) <<< b.val) ∧
    ∀ x' y' : Lane, (x', y') ≠ (k.rev, y) → t'.g.read (s.env.pix f x' y') = t.g.read (s.env.pix f x' y')) ∧
  (∀ (f : Fields) (s s' t t' : State) (x y b : Lane), s.env.Admits f → s.env.Contracts f → s.p.wf → s.g.wf →
    s' = { s with g := s.g.write (s.env.pix f x y) (s.g.read (s.env.pix f x y) ^^^ ((1 : Byte) <<< b.val)) } →
    exec (.encode f) s = .next t → exec (.encode f) s' = .next t' →
    t'.p.read (planarAddr f b y) = t.p.read (planarAddr f b y) ^^^ ((1 : Byte) <<< (7 - x.val)) ∧
    ∀ a, a ≠ planarAddr f b y → t'.p.read a = t.p.read a)

/-- R122 (for transforms other than the identity an inference the spec marks as derived): DECODE a tile, then ENCODE the
same origin into any planar buffer with the same `advance` and `address`: the 64 bytes are back. The second command may
run at any later state whose `G` still holds the pixels, for any tile address it admits. -/
def Obligations.EncodeOfDecodeRestoresTheBytes : Prop :=
  ∀ (f f' : Fields) (s t u : State),
    u.env.transform = s.env.transform → u.env.accessor = s.env.accessor → u.env.gridW = s.env.gridW →
    f'.baseX = f.baseX → f'.baseY = f.baseY →
    s.env.Admits f → s.env.Contracts f → s.g.wf → exec (.decode f) s = .next t →
    u.env.Admits f' → u.env.AddressContract → u.p.wf → u.g = t.g →
    ∃ v, exec (.encode f') u = .next v ∧ ∀ k, k < 64 → v.p.read (f'.tileAddr + k) = s.p.read (f.tileAddr + k)

/-- R123: ENCODE an image, then DECODE the tile into any grid at any origin: the 64 pixels are back. The second command
may run at any later state whose `P` still holds the footprint, under any environment that keeps its contracts. -/
def Obligations.DecodeOfEncodeRestoresThePixels : Prop :=
  ∀ (f f' : Fields) (s t u : State),
    f'.tileAddr = f.tileAddr →
    s.env.Admits f → s.env.AddressContract → s.p.wf → exec (.encode f) s = .next t →
    u.env.Admits f' → u.env.Contracts f' → u.g.wf → (∀ a, InFootprint f a → u.p.read a = t.p.read a) →
    ∃ v, exec (.decode f') u = .next v ∧
      ∀ x y : Lane, v.g.read (u.env.pix f' x y) = s.g.read (s.env.pix f x y)

/-- R50, R66, R129: where `address` keeps its contract (R53), a command whose dimensions, footprint and coordinates are in range
completes with `OK`, whatever its alignment and whatever the memories hold. That a DECODE does so even where `advance` is not
injective on the tile is the model's choice (log 9; U4). -/
def Obligations.AdmittedCommandCompletes : Prop :=
  ∀ (i : Instr) (s : State), s.env.Admits i.fields → s.env.AddressContract →
    ∃ t, exec i s = .next t ∧ Responds i s t .ok ∧ KeepsSurroundings s t

/-! ### Faults -/

/-- R142: `InvalidDimensions` is raised exactly when `width` or `height` is not 8, by either command. -/
def Obligations.WrongDimensionsRaise : Prop :=
  ∀ (i : Instr) (s : State),
    ((i.fields.width ≠ 8 ∨ i.fields.height ≠ 8) →
      ∃ t, exec i s = .next t ∧ Responds i s t .invalidDimensions ∧ t.p = s.p ∧ t.g = s.g ∧ KeepsSurroundings s t) ∧
    (∀ t, exec i s = .next t → t.codec.pending = s.codec.pending ++ [⟨.invalidDimensions, i⟩] →
      i.fields.width ≠ 8 ∨ i.fields.height ≠ 8)

/-- R141: with good dimensions, `OutOfRange` is raised exactly when the footprint does not fit `P` or some pixel lies outside
the grid, by either command. -/
def Obligations.OutOfRangeRaises : Prop :=
  ∀ (i : Instr) (s : State), i.fields.width = 8 → i.fields.height = 8 →
    ((i.fields.tileAddr + 64 > s.env.pbufLen ∨
        ∃ x y : Lane, ¬ (0 ≤ (s.env.coord i.fields x y).1 ∧ (s.env.coord i.fields x y).1 < s.env.gridW ∧
          0 ≤ (s.env.coord i.fields x y).2 ∧ (s.env.coord i.fields x y).2 < s.env.gridH)) →
      ∃ t, exec i s = .next t ∧ Responds i s t .outOfRange ∧ t.p = s.p ∧ t.g = s.g ∧ KeepsSurroundings s t) ∧
    (∀ t, exec i s = .next t → t.codec.pending = s.codec.pending ++ [⟨.outOfRange, i⟩] → ¬ s.env.Admits i.fields)

/-- R144: the checks are made in the order dimensions, planar range, grid range, and the first that fails decides the one
status of the command; a failing command touches neither memory. A command that passes all of them responds `OK` under the
contracts of `advance` and `address`. -/
def Obligations.FirstFailingCheckDecides : Prop :=
  ∀ (i : Instr) (s : State),
    (i.fields.legal = false →
      ∃ t, exec i s = .next t ∧ Responds i s t .invalidDimensions ∧ t.p = s.p ∧ t.g = s.g) ∧
    (i.fields.legal = true → i.fields.tileAddr + 64 > s.env.pbufLen →
      ∃ t, exec i s = .next t ∧ Responds i s t .outOfRange ∧ t.p = s.p ∧ t.g = s.g) ∧
    (i.fields.legal = true → i.fields.tileAddr + 64 ≤ s.env.pbufLen → s.env.gridOk i.fields = false →
      ∃ t, exec i s = .next t ∧ Responds i s t .outOfRange ∧ t.p = s.p ∧ t.g = s.g) ∧
    (i.fields.legal = true → i.fields.tileAddr + 64 ≤ s.env.pbufLen → s.env.gridOk i.fields = true →
      s.env.Contracts i.fields → ∃ t, exec i s = .next t ∧ Responds i s t .ok)

/-- R146: a command that fails a check changes no byte of `P` or `G`, responds with the fault's status, and the block is
`IDLE` again; nothing else is saved or changed. -/
def Obligations.FaultChangesNoByte : Prop :=
  ∀ (i : Instr) (s : State), ¬ s.env.Admits i.fields →
    ∃ t, exec i s = .next t ∧ t.p = s.p ∧ t.g = s.g ∧ KeepsSurroundings s t ∧
      Responds i s t (if i.fields.width ≠ 8 ∨ i.fields.height ≠ 8 then .invalidDimensions else .outOfRange)

/-- R147: a fault is not sticky: the next command gives the memories and the status it would have given without it, and the
faulting command issued again faults with the same status again. -/
def Obligations.FaultIsNotSticky : Prop :=
  ∀ (i j : Instr) (s t u : State), ¬ s.env.Admits i.fields → s.env.Contracts j.fields →
    exec i s = .next t → exec j s = .next u →
    (∃ v st, exec j t = .next v ∧ v.p = u.p ∧ v.g = u.g ∧ Responds j s u st ∧ Responds j t v st) ∧
    ∃ w st, exec i t = .next w ∧ w.p = s.p ∧ w.g = s.g ∧ Responds i s t st ∧ Responds i t w st

/-- R47: addresses do not wrap: `pa(b, y)` is the unbounded sum, and a footprint that passes `PBUF_LEN`, or `2^ADDR_W`, is
out of range. -/
def Obligations.FootprintNeverWraps : Prop :=
  ∀ (i : Instr) (s : State), s.env.wf → i.fields.width = 8 → i.fields.height = 8 →
    (i.fields.tileAddr + 64 > s.env.pbufLen ∨ i.fields.tileAddr + 64 > 2 ^ s.env.widths.addrW) →
    (∀ b y : Lane, planarAddr i.fields b y = i.fields.tileAddr + planeOffset b + 2 * y.val) ∧
    ∃ t, exec i s = .next t ∧ Responds i s t .outOfRange ∧ t.p = s.p ∧ t.g = s.g

/-- R78, R143: the status codes; `0b11` is never produced. -/
def Obligations.StatusCodes : Prop :=
  Status.ok.code = 0b00 ∧ Status.outOfRange.code = 0b01 ∧ Status.invalidDimensions.code = 0b10 ∧
  ∀ st : Status, st.code ≠ 0b11

/-- The model's choice for a breach of R53 (log 10; U5): an admitted command one of whose pixels has no byte of `G` is
refused by name, with no other outcome. -/
def Obligations.BrokenAccessorIsRefused : Prop :=
  ∀ (i : Instr) (s : State), s.env.Admits i.fields → (∃ x y : Lane, s.env.gridLen ≤ s.env.pix i.fields x y) →
    exec i s = .refused .accessorContract

/-! ### The access sequences -/

/-- R120 for DECODE (an inference the spec marks as derived): the access sequence of R101 ends in the memories the
transaction gives. -/
def Obligations.DecodeAccessSequenceAgrees : Prop :=
  ∀ (f : Fields) (s : State), s.env.Admits f → s.env.Contracts f → s.g.wf →
    ∃ t, exec (.decode f) s = .next t ∧
      (s.accessRun.unpack s.env f).p = t.p ∧ SameBytes t.g (s.accessRun.unpack s.env f).g

/-- R120 for ENCODE (an inference the spec marks as derived): the access sequence of R111 ends in the memories the
transaction gives. -/
def Obligations.EncodeAccessSequenceAgrees : Prop :=
  ∀ (f : Fields) (s : State), s.env.Admits f → s.env.AddressContract → s.p.wf →
    ∃ t, exec (.encode f) s = .next t ∧
      (s.accessRun.pack s.env f).g = t.g ∧ SameBytes t.p (s.accessRun.pack s.env f).p

/-- R112 (an inference the spec marks as derived from R111): after columns `0..c-1` every footprint byte holds the new
bits in its top `c` places and its old bits below; and one step changes at most bit `7 - x` of one byte. -/
def Obligations.EncodeIntermediateStates : Prop :=
  (∀ (f : Fields) (s : State) (c : Nat), s.p.wf → c ≤ 8 →
    ∀ (b y : Lane) (j : Lane),
      ((s.accessRun.packColumns s.env f (lanes.take c)).p.read (planarAddr f b y)).getLsbD j.val =
        if 8 - c ≤ j.val then (s.g.read (s.env.pix f j.rev y)).getLsbD b.val
        else (s.p.read (planarAddr f b y)).getLsbD j.val) ∧
  (∀ (f : Fields) (r : AccessRun) (x y b : Lane), r.p.wf → r.work.mask = columnMask x →
    ∀ a (j : Lane), (a ≠ planarAddr f b y ∨ j ≠ x.rev) →
      ((r.packBit f x y b).p.read a).getLsbD j.val = (r.p.read a).getLsbD j.val)

/-- R126: encoding pixel values into column `x` alters no bit of another column of any plane byte. -/
def Obligations.EncodeColumnIsNonDestructive : Prop :=
  ∀ (e : Env) (f : Fields) (r : AccessRun) (x x' b y : Lane), r.p.wf → x' ≠ x →
    ((r.packColumn e f x).p.read (planarAddr f b y)).getLsbD (7 - x'.val) =
      (r.p.read (planarAddr f b y)).getLsbD (7 - x'.val)

/-- R43, R101, R111: which bytes each access sequence touches, and how often: DECODE reads each footprint byte 8 times and
writes each image byte once for each pixel there; ENCODE reads each image byte once for each pixel there and reads and
writes each footprint byte 8 times; neither touches anything else. -/
def Obligations.AccessSequencesTouch : Prop :=
  (∀ (f : Fields) (s : State),
    (∀ a, InFootprint f a → (s.accessRun.unpack s.env f).trace.count (.pRead a) = 8) ∧
    (∀ a, ¬ InFootprint f a → Access.pRead a ∉ (s.accessRun.unpack s.env f).trace) ∧
    (∀ a, Access.pWrite a ∉ (s.accessRun.unpack s.env f).trace) ∧
    (∀ i, Access.gRead i ∉ (s.accessRun.unpack s.env f).trace) ∧
    (∀ i, (s.accessRun.unpack s.env f).trace.count (.gWrite i) = (s.env.image f).count i)) ∧
  (∀ (f : Fields) (s : State),
    (∀ a, InFootprint f a → (s.accessRun.pack s.env f).trace.count (.pRead a) = 8 ∧
      (s.accessRun.pack s.env f).trace.count (.pWrite a) = 8) ∧
    (∀ a, ¬ InFootprint f a → Access.pRead a ∉ (s.accessRun.pack s.env f).trace ∧
      Access.pWrite a ∉ (s.accessRun.pack s.env f).trace) ∧
    (∀ i, (s.accessRun.pack s.env f).trace.count (.gRead i) = (s.env.image f).count i) ∧
    (∀ i, Access.gWrite i ∉ (s.accessRun.pack s.env f).trace))

/-! ### The machine and its host -/

/-- R27, R64: an `IDLE` instance that is issued a word, with no race, captures the word's command and is `BUSY`; memories,
other instances and the host's record stay. -/
def Obligations.IssueCapturesTheCommand : Prop :=
  ∀ (s : State) (w : Nat) (rest : List HostAction) (i : Instr),
    s.codec.phase = .idle → s.host = .issue w :: rest → decode s.env.widths w = .ok i →
    racesWith s.env (s.env.accesses i) s.others = false →
    ∃ t, step s = .next t ∧ t.codec.phase = .busy ∧ t.codec.cmd = i ∧ t.host = rest ∧ t.p = s.p ∧ t.g = s.g ∧
      t.env = s.env ∧ t.others = s.others ∧ t.seen = s.seen ∧ t.codec.pending = s.codec.pending ∧
      t.codec.taken = s.codec.taken

/-- A step runs the captured command. With nothing for the host to do, or while the host waits for a response (R58), a `BUSY`
instance's step is `exec` of its command; that a host with a command to issue waits while the instance is `BUSY` is the
model's choice (log 28). Where the instance in turn is `IDLE`, the first other instance that is `BUSY` runs its command, the
turn staying where it is (log 18). And a word placed by `withFetchWord`, which stands for its acceptance (log 2), is the
command the very next step runs. -/
def Obligations.StepRunsTheCapturedCommand : Prop :=
  (∀ s : State, s.codec.phase = .busy →
    (s.host = [] ∨ (∃ w rest, s.host = .issue w :: rest) ∨
      (s.codec.pending = [] ∧ ∃ rest, s.host = .takeResponse :: rest)) →
    step s = exec s.codec.cmd s) ∧
  (∀ (s t : State) (pre post : List Codec) (c : Codec), s.codec.phase = .idle →
    (s.host = [] ∨ (s.codec.pending = [] ∧ ∃ rest, s.host = .takeResponse :: rest)) →
    s.others = pre ++ c :: post → (∀ d ∈ pre, d.phase = .idle) → c.phase = .busy →
    exec c.cmd { s with codec := c } = .next t →
    step s = .next { t with codec := s.codec, others := pre ++ t.codec :: post }) ∧
  (∀ (s : State) (nbits w : Nat) (i : Instr), decode s.env.widths (w % 2 ^ nbits) = .ok i →
    step (s.withFetchWord nbits w) = exec i (s.withFetchWord nbits w))

/-- R170: after reset the block does nothing until the host presents a command; so do all instances that are `IDLE` while the
host has nothing to do (log 29). -/
def Obligations.IdleBlockDoesNothing : Prop :=
  step State.reset = .next State.reset ∧
  ∀ s : State, (∀ c ∈ s.codecs, c.phase = .idle) → s.host = [] → step s = .next s

/-- R27, R129, R180: every accepted command ends in its response. With nothing for the host to do, after as many steps as
there are `BUSY` instances each of them is `IDLE` with exactly one more response, and the others are as they were. -/
def Obligations.EveryAcceptedCommandResponds : Prop :=
  ∀ s : State, s.env.AddressContract → s.host = [] →
    ∃ t, Runs s.inFlight s t ∧ List.Forall₂ Codec.Finishes s.codecs t.codecs ∧ t.env = s.env

/-- R180, R149: no command stays in flight for ever, whatever the host does. Every run of at least twice as many steps as the
host has actions, and one for each `BUSY` instance, ends with every instance `IDLE`. -/
def Obligations.NoCommandRunsForEver : Prop :=
  ∀ (k : Nat) (s t : State), s.workLeft ≤ k → Runs k s t → ∀ c ∈ t.codecs, c.phase = .idle

/-- R26, R58, and the model's choice (log 15) that responses wait in a queue, oldest first: taking a response takes the oldest
one, once, and changes no memory. -/
def Obligations.TakeResponseTakesTheOldest : Prop :=
  ∀ (s : State) (r : Response) (more : List Response) (rest : List HostAction),
    s.codec.pending = r :: more → s.host = .takeResponse :: rest →
    ∃ t, step s = .next t ∧ t.codec.pending = more ∧ t.codec.taken = s.codec.taken ++ [r.status] ∧
      t.codec.phase = s.codec.phase ∧ t.p = s.p ∧ t.g = s.g ∧ t.host = rest ∧ t.env = s.env ∧ t.others = s.others

/-- R58, R183: a host that issues a command to an `IDLE` instance and takes its response has, three steps later, the memories
the command gives, its status in the list of statuses, and the instance `IDLE` again. -/
def Obligations.IssueThenTakeIsOneCommand : Prop :=
  ∀ (s u : State) (w : Nat) (i : Instr) (rest : List HostAction),
    s.codec.phase = .idle → s.codec.pending = [] → s.host = .issue w :: .takeResponse :: rest →
    decode s.env.widths w = .ok i → racesWith s.env (s.env.accesses i) s.others = false → exec i s = .next u →
    ∃ t st, Runs 3 s t ∧ t.p = u.p ∧ t.g = u.g ∧ u.codec.pending = [⟨st, i⟩] ∧ t.codec.taken = s.codec.taken ++ [st] ∧
      t.codec.pending = [] ∧ t.codec.phase = .idle ∧ t.host = rest ∧ t.env = s.env ∧ t.others = s.others

/-- R182, R55: between commands, every response taken, the host reads and writes bytes freely: a write reads back and leaves every other byte
alone, a read changes no memory and adds the byte read to the host's record. -/
def Obligations.HostAccessesBetweenCommands : Prop :=
  ∀ (s : State) (rest : List HostAction), (∀ c ∈ s.codecs, c.outstanding = []) →
    (∀ a v, s.host = .writePlanar a v :: rest → a < s.env.pbufLen → s.p.wf →
      ∃ t, step s = .next t ∧ t.p.read a = v ∧ (∀ a', a' ≠ a → t.p.read a' = s.p.read a') ∧ t.g = s.g ∧
        t.codec = s.codec ∧ t.host = rest) ∧
    (∀ i v, s.host = .writePixel i v :: rest → i < s.env.gridLen → s.g.wf →
      ∃ t, step s = .next t ∧ t.g.read i = v ∧ (∀ i', i' ≠ i → t.g.read i' = s.g.read i') ∧ t.p = s.p ∧
        t.codec = s.codec ∧ t.host = rest) ∧
    (∀ a, s.host = .readPlanar a :: rest → a < s.env.pbufLen →
      ∃ t, step s = .next t ∧ t.seen = s.seen ++ [s.p.read a] ∧ t.p = s.p ∧ t.g = s.g ∧ t.codec = s.codec ∧
        t.host = rest) ∧
    (∀ i, s.host = .readPixel i :: rest → i < s.env.gridLen →
      ∃ t, step s = .next t ∧ t.seen = s.seen ++ [s.g.read i] ∧ t.p = s.p ∧ t.g = s.g ∧ t.codec = s.codec ∧
        t.host = rest)

/-- R177, R62, R64: beside commands in flight, or not yet answered to the host, a host access that does not race with them
proceeds as between commands: a write of a byte outside every footprint and image, a read of a byte that none of them
writes. Every instance stays as it was, its captured command included. -/
def Obligations.HostAccessesBesideACommand : Prop :=
  ∀ (s : State) (rest : List HostAction),
    (∀ a v, s.host = .writePlanar a v :: rest → a < s.env.pbufLen → s.p.wf →
      (∀ c ∈ s.codecs, ∀ j ∈ c.outstanding, s.env.Admits j.fields → ¬ InFootprint j.fields a) →
      ∃ t, step s = .next t ∧ t.p.read a = v ∧ (∀ a', a' ≠ a → t.p.read a' = s.p.read a') ∧ t.g = s.g ∧
        t.codecs = s.codecs ∧ t.host = rest) ∧
    (∀ i v, s.host = .writePixel i v :: rest → i < s.env.gridLen → s.g.wf →
      (∀ c ∈ s.codecs, ∀ j ∈ c.outstanding, s.env.Admits j.fields → ¬ s.env.InImage j.fields i) →
      ∃ t, step s = .next t ∧ t.g.read i = v ∧ (∀ i', i' ≠ i → t.g.read i' = s.g.read i') ∧ t.p = s.p ∧
        t.codecs = s.codecs ∧ t.host = rest) ∧
    (∀ a, s.host = .readPlanar a :: rest → a < s.env.pbufLen →
      (∀ c ∈ s.codecs, ∀ f, .encode f ∈ c.outstanding → s.env.Admits f → ¬ InFootprint f a) →
      ∃ t, step s = .next t ∧ t.seen = s.seen ++ [s.p.read a] ∧ t.p = s.p ∧ t.g = s.g ∧ t.codecs = s.codecs ∧
        t.host = rest) ∧
    (∀ i, s.host = .readPixel i :: rest → i < s.env.gridLen →
      (∀ c ∈ s.codecs, ∀ f, .decode f ∈ c.outstanding → s.env.Admits f → ¬ s.env.InImage f i) →
      ∃ t, step s = .next t ∧ t.seen = s.seen ++ [s.g.read i] ∧ t.p = s.p ∧ t.g = s.g ∧ t.codecs = s.codecs ∧
        t.host = rest)

/-- The model's choice (log 16): a host access to a byte that does not exist (R41, R42) stops the machine, whatever is in flight;
for `G` under the contract of `address`, so that no image reaches outside it. -/
def Obligations.HostAccessOutsideFaults : Prop :=
  ∀ (s : State) (rest : List HostAction),
    (∀ a v, s.env.pbufLen ≤ a → (s.host = .writePlanar a v :: rest ∨ s.host = .readPlanar a :: rest) →
      step s = .fault .noPlanarByte) ∧
    (∀ i v, s.env.AddressContract → s.env.gridLen ≤ i →
      (s.host = .writePixel i v :: rest ∨ s.host = .readPixel i :: rest) → step s = .fault .noPixelByte)

/-- R177, R178 as the model keeps them (log 12; U3): while an admitted command of any instance runs, or its response is not
taken, the step refuses a host write to a byte of its footprint or image and a host read of a byte it writes. -/
def Obligations.HostRaceIsRefused : Prop :=
  ∀ (s : State) (rest : List HostAction) (c : Codec) (j : Instr),
    c ∈ s.codecs → j ∈ c.outstanding → s.env.Admits j.fields →
    (∀ a v, InFootprint j.fields a → s.host = .writePlanar a v :: rest → step s = .refused .dataRace) ∧
    (∀ i v, s.env.InImage j.fields i → s.host = .writePixel i v :: rest → step s = .refused .dataRace) ∧
    (∀ a f, j = .encode f → InFootprint f a → s.host = .readPlanar a :: rest → step s = .refused .dataRace) ∧
    (∀ i f, j = .decode f → s.env.InImage f i → s.host = .readPixel i :: rest → step s = .refused .dataRace)

/-- R60, R61, R62, R178 as the model keeps them (log 12; U3): a command is refused acceptance while some other instance has an
outstanding command, running or with its response not taken, with which it races, both of them admitted. They race where
one of the two is an ENCODE and their footprints overlap, and where one of the two is a DECODE and their images share an
index. -/
def Obligations.RacingCommandIsRefused : Prop :=
  ∀ (s : State) (c : Codec) (rest : List HostAction) (w : Nat) (i j : Instr),
    s.codec.phase = .idle → s.host = .issue w :: rest → decode s.env.widths w = .ok i →
    c ∈ s.others → j ∈ c.outstanding → s.env.Admits i.fields → s.env.Admits j.fields →
    ((i.op = 1 ∨ j.op = 1) →
      i.fields.tileAddr < j.fields.tileAddr + 64 → j.fields.tileAddr < i.fields.tileAddr + 64 →
      step s = .refused .dataRace) ∧
    ((i.op = 0 ∨ j.op = 0) → ∀ n, s.env.InImage i.fields n → s.env.InImage j.fields n →
      step s = .refused .dataRace)

/-- R60, R61, R62: a command that races with no outstanding command of another instance is accepted. Two DECODEs may share
footprint bytes, two ENCODEs may share pixels where their tile addresses are 64 or more apart, and a command that fails its
checks races with nothing (R145). -/
def Obligations.RaceFreeCommandIsAccepted : Prop :=
  ∀ (s : State) (rest : List HostAction) (w : Nat) (i : Instr),
    s.codec.phase = .idle → s.host = .issue w :: rest → decode s.env.widths w = .ok i →
    (∀ c ∈ s.others, ∀ j ∈ c.outstanding, s.env.Admits i.fields → s.env.Admits j.fields →
      ((i.op = 1 ∨ j.op = 1) →
        i.fields.tileAddr + 64 ≤ j.fields.tileAddr ∨ j.fields.tileAddr + 64 ≤ i.fields.tileAddr) ∧
      ((i.op = 0 ∨ j.op = 0) → ∀ n, s.env.InImage i.fields n → ¬ s.env.InImage j.fields n)) →
    ∃ t, step s = .next t ∧ t.codec.phase = .busy ∧ t.codec.cmd = i ∧ t.others = s.others ∧ t.host = rest ∧
      t.p = s.p ∧ t.g = s.g ∧ t.env = s.env

/-- R60, R61, R153: two commands that do not race give the same memories in either order, so each gives what it would give
alone beside the other. Both run under one environment, which is the model's choice (log 30). -/
def Obligations.RaceFreeCommandsCommute : Prop :=
  ∀ (i j : Instr) (s : State), s.p.wf → s.g.wf → s.env.Contracts i.fields → s.env.Contracts j.fields →
    (s.env.accesses i).races (s.env.accesses j) = false →
    ∃ t tj u ui, exec i s = .next t ∧ exec j t = .next tj ∧ exec j s = .next u ∧ exec i u = .next ui ∧
      SameBytes tj.p ui.p ∧ SameBytes tj.g ui.g

/-- R179, R182: `advance` is reconfigured between commands only: with nothing outstanding the configuration changes and nothing
else. The rest is the model's choice: a command is over once its response is taken, else the step refuses (log 13), and a
command of any instance counts, since all of them share the configuration (log 30). -/
def Obligations.ReconfigureOnlyBetweenCommands : Prop :=
  ∀ (s : State) (tr : Transform) (rest : List HostAction), s.host = .reconfigure tr :: rest →
    ((∀ c ∈ s.codecs, c.outstanding = []) →
      step s = .next { s with host := rest, env := { s.env with transform := tr } }) ∧
    ((∃ c ∈ s.codecs, c.outstanding ≠ []) → step s = .refused .environmentMoved)

/-- R153 as the model keeps it (log 18): a turn passes to the next instance, keeps all of them in their cyclic order, and
changes neither memory. -/
def Obligations.TurnKeepsAllCodecs : Prop :=
  ∀ (s : State) (rest : List HostAction), s.host = .turn :: rest →
    ∃ t, step s = .next t ∧ t.codecs = s.codecs.rotate 1 ∧ t.p = s.p ∧ t.g = s.g ∧ t.env = s.env ∧ t.host = rest

/-- R30, R8: no step changes a width, a size or the accessor. `advance` changes only by the host's reconfiguration (R182).
That this needs every response of every instance taken is the model's choice (log 13, log 30): R178 makes the response the
only ordering, and R179 asks only that `advance` hold still during a command. -/
def Obligations.OnlyAdvanceIsReconfigured : Prop :=
  ∀ s t : State, step s = .next t →
    t.env.widths = s.env.widths ∧ t.env.pbufLen = s.env.pbufLen ∧ t.env.gridW = s.env.gridW ∧
    t.env.gridH = s.env.gridH ∧ t.env.accessor = s.env.accessor ∧
    (t.env.transform = s.env.transform ∨
      ∃ rest, s.host = .reconfigure t.env.transform :: rest ∧ ∀ c ∈ s.codecs, c.outstanding = [])

/-! ### Reset -/

/-- R32, R170, R171: a reset of an instance that is `IDLE`, or runs a command that fails its checks, leaves it `IDLE` with no
response pending, and leaves `P`, `G` and everything outside the block alone. -/
def Obligations.ResetTouchesNoMemory : Prop :=
  ∀ (s : State) (rest : List HostAction), s.host = .reset :: rest →
    (s.codec.phase = .idle ∨ ¬ s.env.Admits s.codec.cmd.fields) →
    ∃ t, step s = .next t ∧ t.codec.phase = .idle ∧ t.codec.pending = [] ∧ t.p = s.p ∧ t.g = s.g ∧
      t.env = s.env ∧ t.others = s.others ∧ t.seen = s.seen ∧ t.codec.taken = s.codec.taken ∧ t.host = rest

/-- R32, R171, U6 for ENCODE: a reset abandons the running command with no response; each footprint byte holds its old
value or one the access sequence gives it, and everything else is intact. -/
def Obligations.ResetAbandonsEncode : Prop :=
  ∀ (s : State) (rest : List HostAction) (f : Fields), s.host = .reset :: rest → s.codec.phase = .busy →
    s.codec.cmd = .encode f → s.env.Admits f → s.env.AddressContract → s.p.wf →
    ∃ t, step s = .next t ∧ t.codec.phase = .idle ∧ t.codec.pending = [] ∧ t.codec.taken = s.codec.taken ∧
      t.g = s.g ∧ t.env = s.env ∧ t.others = s.others ∧ t.seen = s.seen ∧
      (∀ b y : Lane, ∃ c ≤ 8, t.p.read (planarAddr f b y) =
        (s.accessRun.packColumns s.env f (lanes.take c)).p.read (planarAddr f b y)) ∧
      ∀ a, ¬ InFootprint f a → t.p.read a = s.p.read a

/-- R32, R171, U6 for DECODE: a reset abandons the running command with no response; each image byte holds its old value
or the pixel the access sequence writes there, and everything else is intact. -/
def Obligations.ResetAbandonsDecode : Prop :=
  ∀ (s : State) (rest : List HostAction) (f : Fields), s.host = .reset :: rest → s.codec.phase = .busy →
    s.codec.cmd = .decode f → s.env.Admits f → s.env.Contracts f → s.g.wf →
    ∃ t, step s = .next t ∧ t.codec.phase = .idle ∧ t.codec.pending = [] ∧ t.codec.taken = s.codec.taken ∧
      t.p = s.p ∧ t.env = s.env ∧ t.others = s.others ∧ t.seen = s.seen ∧
      (∀ x y : Lane, t.g.read (s.env.pix f x y) = s.g.read (s.env.pix f x y) ∨
        ∀ b : Lane, (t.g.read (s.env.pix f x y)).getLsbD b.val =
          (s.p.read (planarAddr f b y)).getLsbD (7 - x.val)) ∧
      ∀ i, ¬ s.env.InImage f i → t.g.read i = s.g.read i

/-! ### Invariants -/

/-- The invariant holds at reset, and no commands race there. -/
def Obligations.InvariantHoldsAtReset : Prop := State.reset.Inv ∧ State.reset.RaceFree

/-- Every step keeps the invariant: the parameters as R8 constrains them, both memories in canonical form and inside their
spaces (R41, R42), the captured fields of every instance, and of every command whose response is pending, of their widths
(R25, R71). -/
def Obligations.EveryStepKeepsTheInvariant : Prop :=
  ∀ s t : State, s.Inv → step s = .next t → t.Inv

/-- R59, R178 as the model keeps them: from a state in which no outstanding commands of two instances race, every step leads
to one (log 12). -/
def Obligations.EveryStepKeepsRaceFreedom : Prop :=
  ∀ s t : State, s.RaceFree → step s = .next t → t.RaceFree
end

