-- ==== Sys2Proof/Laws/State.lean ====
section
/-! SUPPORT. One lemma for each field of each named update of the state, true by `rfl`, so that no proof unfolds a record
update. -/

namespace Sys2Proof.Machine

section Codec
variable (c : Codec) (ws : Widths) (n : Nat)
@[simp] theorem Codec.toIdle_phase : (c.toIdle ws n).phase = .idle := rfl
@[simp] theorem Codec.toIdle_cmd : (c.toIdle ws n).cmd = unspecifiedCommand ws n := rfl
@[simp] theorem Codec.toIdle_work : (c.toIdle ws n).work = unspecifiedWorking n := rfl
@[simp] theorem Codec.toIdle_pending : (c.toIdle ws n).pending = c.pending := rfl
@[simp] theorem Codec.toIdle_taken : (c.toIdle ws n).taken = c.taken := rfl
end Codec

section WithMemory
variable (s : State) (m : Memory)
@[simp] theorem State.withP_p : (s.withP m).p = m := rfl
@[simp] theorem State.withP_g : (s.withP m).g = s.g := rfl
@[simp] theorem State.withP_env : (s.withP m).env = s.env := rfl
@[simp] theorem State.withP_codec : (s.withP m).codec = s.codec := rfl
@[simp] theorem State.withP_others : (s.withP m).others = s.others := rfl
@[simp] theorem State.withP_host : (s.withP m).host = s.host := rfl
@[simp] theorem State.withP_seen : (s.withP m).seen = s.seen := rfl
@[simp] theorem State.withP_draws : (s.withP m).draws = s.draws := rfl
@[simp] theorem State.withG_p : (s.withG m).p = s.p := rfl
@[simp] theorem State.withG_g : (s.withG m).g = m := rfl
@[simp] theorem State.withG_env : (s.withG m).env = s.env := rfl
@[simp] theorem State.withG_codec : (s.withG m).codec = s.codec := rfl
@[simp] theorem State.withG_others : (s.withG m).others = s.others := rfl
@[simp] theorem State.withG_host : (s.withG m).host = s.host := rfl
@[simp] theorem State.withG_seen : (s.withG m).seen = s.seen := rfl
@[simp] theorem State.withG_draws : (s.withG m).draws = s.draws := rfl
@[simp] theorem State.withP_self : s.withP s.p = s := rfl
@[simp] theorem State.withG_self : s.withG s.g = s := rfl
@[simp] theorem State.withP_withG_self : (s.withP m).withG s.g = s.withP m := rfl
end WithMemory

section Respond
variable (s : State) (i : Instr) (st : Status)
@[simp] theorem State.respond_p : (s.respond i st).p = s.p := rfl
@[simp] theorem State.respond_g : (s.respond i st).g = s.g := rfl
@[simp] theorem State.respond_env : (s.respond i st).env = s.env := rfl
@[simp] theorem State.respond_others : (s.respond i st).others = s.others := rfl
@[simp] theorem State.respond_host : (s.respond i st).host = s.host := rfl
@[simp] theorem State.respond_seen : (s.respond i st).seen = s.seen := rfl
@[simp] theorem State.respond_draws : (s.respond i st).draws = s.draws + 1 := rfl
@[simp] theorem State.respond_phase : (s.respond i st).codec.phase = .idle := rfl
@[simp] theorem State.respond_pending : (s.respond i st).codec.pending = s.codec.pending ++ [⟨st, i⟩] := rfl
@[simp] theorem State.respond_cmd : (s.respond i st).codec.cmd = unspecifiedCommand s.env.widths s.draws := rfl
@[simp] theorem State.respond_taken : (s.respond i st).codec.taken = s.codec.taken := rfl
end Respond

section Raise
variable (s : State) (i : Instr) (k : CodecFault)
@[simp] theorem State.raise_p : (s.raise i k).p = s.p := rfl
@[simp] theorem State.raise_g : (s.raise i k).g = s.g := rfl
@[simp] theorem State.raise_env : (s.raise i k).env = s.env := rfl
@[simp] theorem State.raise_others : (s.raise i k).others = s.others := rfl
@[simp] theorem State.raise_host : (s.raise i k).host = s.host := rfl
@[simp] theorem State.raise_seen : (s.raise i k).seen = s.seen := rfl
@[simp] theorem State.raise_draws : (s.raise i k).draws = s.draws + 1 := rfl
@[simp] theorem State.raise_phase : (s.raise i k).codec.phase = .idle := rfl
@[simp] theorem State.raise_pending : (s.raise i k).codec.pending = s.codec.pending ++ [⟨k.status, i⟩] := rfl
@[simp] theorem State.raise_cmd : (s.raise i k).codec.cmd = unspecifiedCommand s.env.widths s.draws := rfl
@[simp] theorem State.raise_taken : (s.raise i k).codec.taken = s.codec.taken := rfl
end Raise

section Accept
variable (s : State) (i : Instr)
@[simp] theorem State.accept_p : (s.accept i).p = s.p := rfl
@[simp] theorem State.accept_g : (s.accept i).g = s.g := rfl
@[simp] theorem State.accept_env : (s.accept i).env = s.env := rfl
@[simp] theorem State.accept_others : (s.accept i).others = s.others := rfl
@[simp] theorem State.accept_host : (s.accept i).host = s.host := rfl
@[simp] theorem State.accept_seen : (s.accept i).seen = s.seen := rfl
@[simp] theorem State.accept_draws : (s.accept i).draws = s.draws := rfl
@[simp] theorem State.accept_phase : (s.accept i).codec.phase = .busy := rfl
@[simp] theorem State.accept_cmd : (s.accept i).codec.cmd = i := rfl
@[simp] theorem State.accept_pending : (s.accept i).codec.pending = s.codec.pending := rfl
@[simp] theorem State.accept_taken : (s.accept i).codec.taken = s.codec.taken := rfl
end Accept

section Take
variable (s : State) (r : Response) (rest : List Response)
@[simp] theorem State.take_p : (s.take r rest).p = s.p := rfl
@[simp] theorem State.take_g : (s.take r rest).g = s.g := rfl
@[simp] theorem State.take_env : (s.take r rest).env = s.env := rfl
@[simp] theorem State.take_others : (s.take r rest).others = s.others := rfl
@[simp] theorem State.take_host : (s.take r rest).host = s.host := rfl
@[simp] theorem State.take_seen : (s.take r rest).seen = s.seen := rfl
@[simp] theorem State.take_draws : (s.take r rest).draws = s.draws := rfl
@[simp] theorem State.take_phase : (s.take r rest).codec.phase = s.codec.phase := rfl
@[simp] theorem State.take_cmd : (s.take r rest).codec.cmd = s.codec.cmd := rfl
@[simp] theorem State.take_pending : (s.take r rest).codec.pending = rest := rfl
@[simp] theorem State.take_taken : (s.take r rest).codec.taken = s.codec.taken ++ [r.status] := rfl
end Take

section IdleAfterReset
variable (s : State)
@[simp] theorem State.idleAfterReset_p : s.idleAfterReset.p = s.p := rfl
@[simp] theorem State.idleAfterReset_g : s.idleAfterReset.g = s.g := rfl
@[simp] theorem State.idleAfterReset_env : s.idleAfterReset.env = s.env := rfl
@[simp] theorem State.idleAfterReset_others : s.idleAfterReset.others = s.others := rfl
@[simp] theorem State.idleAfterReset_host : s.idleAfterReset.host = s.host := rfl
@[simp] theorem State.idleAfterReset_seen : s.idleAfterReset.seen = s.seen := rfl
@[simp] theorem State.idleAfterReset_draws : s.idleAfterReset.draws = s.draws + 1 := rfl
@[simp] theorem State.idleAfterReset_phase : s.idleAfterReset.codec.phase = .idle := rfl
@[simp] theorem State.idleAfterReset_pending : s.idleAfterReset.codec.pending = [] := rfl
@[simp] theorem State.idleAfterReset_cmd : s.idleAfterReset.codec.cmd = unspecifiedCommand s.env.widths s.draws := rfl
@[simp] theorem State.idleAfterReset_taken : s.idleAfterReset.codec.taken = s.codec.taken := rfl
end IdleAfterReset

section Abandon
variable (s : State) (i : Instr)
@[simp] theorem State.abandon_env : (s.abandon i).env = s.env := by cases i <;> simp [State.abandon]
@[simp] theorem State.abandon_codec : (s.abandon i).codec = s.codec := by cases i <;> simp [State.abandon]
@[simp] theorem State.abandon_others : (s.abandon i).others = s.others := by cases i <;> simp [State.abandon]
@[simp] theorem State.abandon_host : (s.abandon i).host = s.host := by cases i <;> simp [State.abandon]
@[simp] theorem State.abandon_seen : (s.abandon i).seen = s.seen := by cases i <;> simp [State.abandon]
@[simp] theorem State.abandon_draws : (s.abandon i).draws = s.draws := by cases i <;> simp [State.abandon]
end Abandon

section Turn
variable (s : State)
@[simp] theorem State.turn_p : s.turn.p = s.p := by unfold State.turn; split <;> rfl
@[simp] theorem State.turn_g : s.turn.g = s.g := by unfold State.turn; split <;> rfl
@[simp] theorem State.turn_env : s.turn.env = s.env := by unfold State.turn; split <;> rfl
@[simp] theorem State.turn_host : s.turn.host = s.host := by unfold State.turn; split <;> rfl
@[simp] theorem State.turn_seen : s.turn.seen = s.seen := by unfold State.turn; split <;> rfl
@[simp] theorem State.turn_draws : s.turn.draws = s.draws := by unfold State.turn; split <;> rfl
end Turn

section AccessRun
variable (r : AccessRun) (n : Nat) (x y b : Lane)
@[simp] theorem AccessRun.pRead_p : (r.pRead n).p = r.p := rfl
@[simp] theorem AccessRun.pRead_g : (r.pRead n).g = r.g := rfl
@[simp] theorem AccessRun.pRead_cur : (r.pRead n).work.cur = r.p.read n := rfl
@[simp] theorem AccessRun.pRead_pixel : (r.pRead n).work.pixel = r.work.pixel := rfl
@[simp] theorem AccessRun.pRead_mask : (r.pRead n).work.mask = r.work.mask := rfl
@[simp] theorem AccessRun.pRead_trace : (r.pRead n).trace = .pRead n :: r.trace := rfl
@[simp] theorem AccessRun.pWrite_p : (r.pWrite n).p = r.p.write n r.work.cur := rfl
@[simp] theorem AccessRun.pWrite_g : (r.pWrite n).g = r.g := rfl
@[simp] theorem AccessRun.pWrite_work : (r.pWrite n).work = r.work := rfl
@[simp] theorem AccessRun.pWrite_trace : (r.pWrite n).trace = .pWrite n :: r.trace := rfl
@[simp] theorem AccessRun.gRead_p : (r.gRead n).p = r.p := rfl
@[simp] theorem AccessRun.gRead_g : (r.gRead n).g = r.g := rfl
@[simp] theorem AccessRun.gRead_pixel : (r.gRead n).work.pixel = r.g.read n := rfl
@[simp] theorem AccessRun.gRead_mask : (r.gRead n).work.mask = r.work.mask := rfl
@[simp] theorem AccessRun.gRead_trace : (r.gRead n).trace = .gRead n :: r.trace := rfl
@[simp] theorem AccessRun.gWrite_p : (r.gWrite n).p = r.p := rfl
@[simp] theorem AccessRun.gWrite_g : (r.gWrite n).g = r.g.write n r.work.pixel := rfl
@[simp] theorem AccessRun.gWrite_work : (r.gWrite n).work = r.work := rfl
@[simp] theorem AccessRun.gWrite_trace : (r.gWrite n).trace = .gWrite n :: r.trace := rfl
@[simp] theorem AccessRun.atLane_p : (r.atLane x y b).p = r.p := rfl
@[simp] theorem AccessRun.atLane_g : (r.atLane x y b).g = r.g := rfl
@[simp] theorem AccessRun.atLane_trace : (r.atLane x y b).trace = r.trace := rfl
@[simp] theorem AccessRun.atLane_pixel : (r.atLane x y b).work.pixel = r.work.pixel := rfl
@[simp] theorem AccessRun.atLane_mask : (r.atLane x y b).work.mask = r.work.mask := rfl
@[simp] theorem AccessRun.atLane_cur : (r.atLane x y b).work.cur = r.work.cur := rfl
@[simp] theorem State.accessRun_p (s : State) : s.accessRun.p = s.p := rfl
@[simp] theorem State.accessRun_g (s : State) : s.accessRun.g = s.g := rfl
@[simp] theorem State.accessRun_trace (s : State) : s.accessRun.trace = [] := rfl
end AccessRun

/-- What `Responds` and `KeepsSurroundings` say of the operations that end a command. -/
theorem responds_respond (s : State) (i : Instr) (st : Status) : Responds i s (s.respond i st) st := ⟨rfl, rfl⟩

theorem responds_raise (s : State) (i : Instr) (k : CodecFault) : Responds i s (s.raise i k) k.status := ⟨rfl, rfl⟩

theorem responds_withP (s : State) (m : Memory) (i : Instr) (st : Status) :
    Responds i s ((s.withP m).respond i st) st := ⟨rfl, rfl⟩

theorem responds_withG (s : State) (m : Memory) (i : Instr) (st : Status) :
    Responds i s ((s.withG m).respond i st) st := ⟨rfl, rfl⟩

theorem keepsSurroundings_raise (s : State) (i : Instr) (k : CodecFault) : KeepsSurroundings s (s.raise i k) := by
  simp [KeepsSurroundings]

theorem keepsSurroundings_withP (s : State) (m : Memory) (i : Instr) (st : Status) :
    KeepsSurroundings s ((s.withP m).respond i st) := by simp [KeepsSurroundings]

theorem keepsSurroundings_withG (s : State) (m : Memory) (i : Instr) (st : Status) :
    KeepsSurroundings s ((s.withG m).respond i st) := by simp [KeepsSurroundings]

end Sys2Proof.Machine
end

