-- ==== Sys2Proof/Laws/Layout.lean ====
section
/-! SUPPORT. What the operand functions compute: the bits that move between a plane byte and a pixel, the addresses of a
footprint, the indices of an image, and when a command passes its checks. -/

namespace Sys2Proof.Machine

@[simp] theorem mem_lanes (x : Lane) : x ∈ lanes := by fin_cases x <;> simp [lanes]

@[simp] theorem mem_tileCoords (c : Lane × Lane) : c ∈ tileCoords :=
  List.mem_flatMap.2 ⟨c.1, mem_lanes _, List.mem_map.2 ⟨c.2, mem_lanes _, rfl⟩⟩

theorem tileCoords_nodup : tileCoords.Nodup := by decide

theorem tileCoords_length : tileCoords.length = 64 := by decide

/-- A statement about all lanes, as eight. -/
theorem forall_lane {P : Lane → Prop} : (∀ x, P x) ↔ ∀ x ∈ lanes, P x := by simp

/-! ### Bits -/

theorem columnBit_getLsbD (cur : Byte) (x : Lane) (j : Nat) :
    (columnBit cur x).getLsbD j = (decide (j = 0) && cur.getLsbD (7 - x.val)) := by
  by_cases h : j = 0
  · subst h; simp [columnBit]
  · simp [columnBit, h, BitVec.getLsbD_one]

theorem planeBit_getLsbD (pixel : Byte) (b : Lane) (j : Nat) :
    (planeBit pixel b).getLsbD j = (decide (j = 0) && pixel.getLsbD b.val) := by
  by_cases h : j = 0
  · subst h; simp [planeBit]
  · simp [planeBit, h, BitVec.getLsbD_one]

/-- One step of the inner loop of R100: bit `b` is taken from column `x`, the other bits stay. -/
theorem placeColumnBit_getLsbD (v cur : Byte) (x b j : Lane) :
    (v ||| (columnBit cur x <<< b.val)).getLsbD j.val =
      (v.getLsbD j.val || (decide (j = b) && cur.getLsbD (7 - x.val))) := by
  have hj : j.val < 8 := j.isLt
  have hb : b.val < 8 := b.isLt
  simp only [BitVec.getLsbD_or, BitVec.getLsbD_shiftLeft, columnBit_getLsbD, hj, decide_true, Bool.true_and]
  congr 1
  rcases lt_trichotomy j.val b.val with h | h | h
  · simp [h, Fin.ext_iff, h.ne]
  · simp [h, Fin.ext_iff]
  · simp [h.ne', Fin.ext_iff, show ¬ j.val < b.val by omega, show j.val - b.val ≠ 0 by omega]

/-- One step of the inner loop of R110: bit `7 - x` is taken from plane `b`, the other bits stay. -/
theorem placePlaneBit_getLsbD (v pixel : Byte) (x b j : Lane) :
    (v ||| (planeBit pixel b <<< (7 - x.val))).getLsbD (7 - j.val) =
      (v.getLsbD (7 - j.val) || (decide (j = x) && pixel.getLsbD b.val)) := by
  have hj : j.val < 8 := j.isLt
  have hx : x.val < 8 := x.isLt
  simp only [BitVec.getLsbD_or, BitVec.getLsbD_shiftLeft, planeBit_getLsbD, show 7 - j.val < 8 by omega, decide_true,
    Bool.true_and]
  congr 1
  rcases lt_trichotomy j.val x.val with h | h | h
  · simp [show ¬ 7 - j.val < 7 - x.val by omega, show 7 - j.val - (7 - x.val) ≠ 0 by omega, Fin.ext_iff, h.ne]
  · simp [h, Fin.ext_iff]
  · simp [show 7 - j.val < 7 - x.val by omega, Fin.ext_iff, h.ne']

/-- A fold of single-bit placements over all lanes reads, at lane `j`, what lane `j` placed. -/
theorem foldl_place {F : Byte → Lane → Byte} {pos : Lane → Nat} {bit : Lane → Bool}
    (h : ∀ v k j, (F v k).getLsbD (pos j) = (v.getLsbD (pos j) || (decide (j = k) && bit k))) (j : Lane) :
    (lanes.foldl F 0).getLsbD (pos j) = bit j := by
  simp only [lanes, List.foldl_cons, List.foldl_nil, h, BitVec.ofNat_eq_ofNat, BitVec.getLsbD_zero, Bool.false_or]
  fin_cases j <;> simp

/-- A pixel's bit `b` is column `x` of plane `b` (R48). -/
theorem assemblePixel_getLsbD (plane : Lane → Byte) (x b : Lane) :
    (assemblePixel plane x).getLsbD b.val = (plane b).getLsbD (7 - x.val) :=
  foldl_place (pos := fun j => j.val) (bit := fun b => (plane b).getLsbD (7 - x.val))
    (fun v k j => placeColumnBit_getLsbD v (plane k) x k j) b

/-- A plane byte's bit `7 - x` is bit `b` of pixel `x` (R48). -/
theorem assemblePlane_getLsbD (pixel : Lane → Byte) (b x : Lane) :
    (assemblePlane pixel b).getLsbD (7 - x.val) = (pixel x).getLsbD b.val :=
  foldl_place (pos := fun j => 7 - j.val) (bit := fun x => (pixel x).getLsbD b.val)
    (fun v k j => placePlaneBit_getLsbD v (pixel k) k b j) x

/-- Two bytes with the same eight bits, numbered by plane. -/
theorem byte_ext {v w : Byte} (h : ∀ b : Lane, v.getLsbD b.val = w.getLsbD b.val) : v = w :=
  BitVec.eq_of_getLsbD_eq fun i hi => h ⟨i, hi⟩

/-- Two bytes with the same eight bits, numbered by column. -/
theorem byte_ext_columns {v w : Byte} (h : ∀ x : Lane, v.getLsbD (7 - x.val) = w.getLsbD (7 - x.val)) : v = w :=
  byte_ext fun b => by
    have := h ⟨7 - b.val, by omega⟩
    rwa [show 7 - (7 - b.val) = b.val by omega] at this

/-! ### Addresses -/

theorem planeOffset_eq (b : Lane) : planeOffset b = 16 * (b.val / 2) + b.val % 2 := by
  fin_cases b <;> rfl

/-- `pa(b, y)` as an offset from the tile (R46). -/
theorem planarAddr_eq (f : Fields) (b y : Lane) :
    planarAddr f b y = f.tileAddr + (16 * (b.val / 2) + b.val % 2 + 2 * y.val) := by
  simp [planarAddr, planeOffset_eq, Config.rowStride, Nat.add_assoc]

/-- Different planes or rows have different addresses (R46). -/
theorem planarAddr_injective {f : Fields} {b y b' y' : Lane} (h : planarAddr f b y = planarAddr f b' y') :
    b = b' ∧ y = y' := by
  rw [planarAddr_eq, planarAddr_eq] at h
  constructor <;> apply Fin.ext <;> omega

/-- Every plane byte lies in the footprint (R46). -/
theorem planarAddr_inFootprint (f : Fields) (b y : Lane) : InFootprint f (planarAddr f b y) := by
  rw [planarAddr_eq]
  constructor <;> omega

/-- Every address of the footprint is a plane byte (R46). -/
theorem exists_planarAddr {f : Fields} {a : Nat} (h : InFootprint f a) : ∃ b y, planarAddr f b y = a := by
  obtain ⟨h1, h2⟩ := h
  refine ⟨⟨2 * ((a - f.tileAddr) / 16) + (a - f.tileAddr) % 2, by omega⟩,
    ⟨(a - f.tileAddr) / 2 % 8, by omega⟩, ?_⟩
  rw [planarAddr_eq]
  simp only
  omega

theorem inFootprint_iff {f : Fields} {a : Nat} : InFootprint f a ↔ ∃ b y, planarAddr f b y = a :=
  ⟨exists_planarAddr, fun ⟨b, y, h⟩ => h ▸ planarAddr_inFootprint f b y⟩

theorem mem_footprint {f : Fields} {a : Nat} : a ∈ footprint f ↔ InFootprint f a := by
  simp only [footprint, List.mem_map, List.mem_range, InFootprint, Config.tileBytes]
  constructor
  · rintro ⟨k, hk, rfl⟩; omega
  · rintro ⟨h1, h2⟩; exact ⟨a - f.tileAddr, by omega, by omega⟩

theorem mem_image {e : Env} {f : Fields} {i : Nat} : i ∈ e.image f ↔ e.InImage f i := by
  simp [Env.image, Env.InImage]

/-! ### The checks -/

theorem inGrid_iff {e : Env} {c : Int × Int} :
    e.inGrid c ↔ 0 ≤ c.1 ∧ c.1 < e.gridW ∧ 0 ≤ c.2 ∧ c.2 < e.gridH := by
  simp [Env.inGrid, and_assoc]

theorem gridOk_iff {e : Env} {f : Fields} : e.gridOk f ↔ ∀ x y, e.inGrid (e.coord f x y) := by
  simp [Env.gridOk, List.all_eq_true]

theorem imageInStore_iff {e : Env} {f : Fields} : e.imageInStore f ↔ ∀ x y, e.pix f x y < e.gridLen := by
  simp [Env.imageInStore, Env.image, List.all_eq_true]

/-- A command passes its checks exactly where the host has set it up as R172 d says. -/
theorem check_eq_none_iff {e : Env} {f : Fields} : e.check f = none ↔ e.Admits f := by
  have hgrid : e.gridOk f ↔ ∀ x y : Lane, 0 ≤ (e.coord f x y).1 ∧ (e.coord f x y).1 < e.gridW ∧
      0 ≤ (e.coord f x y).2 ∧ (e.coord f x y).2 < e.gridH := by simp only [gridOk_iff, inGrid_iff]
  unfold Env.check Env.Admits
  rw [← hgrid]
  simp only [Config.tileSide, Config.tileBytes]
  by_cases hw : f.width = 8 <;> by_cases hh : f.height = 8 <;> by_cases hp : f.tileAddr + 64 ≤ e.pbufLen <;>
    by_cases hg : e.gridOk f <;> simp_all

/-- Which fault a command raises (R141, R142, R144). -/
theorem check_eq_some {e : Env} {f : Fields} {k : CodecFault} (h : e.check f = some k) :
    (k = .invalidDimensions ∧ ¬ (f.width = 8 ∧ f.height = 8)) ∨
    (k = .outOfRange ∧ (f.width = 8 ∧ f.height = 8) ∧ ¬ e.Admits f) := by
  have hn : ¬ e.Admits f := fun ha => by simp [check_eq_none_iff.2 ha] at h
  unfold Env.check at h
  by_cases hd : f.width ≠ Config.tileSide ∨ f.height ≠ Config.tileSide
  · rw [if_pos hd] at h
    exact .inl ⟨(Option.some.inj h).symm, fun h' => hd.elim (· h'.1) (· h'.2)⟩
  · rw [if_neg hd] at h
    refine .inr ⟨?_, not_or.1 hd |>.imp not_not.1 not_not.1, hn⟩
    split at h
    · exact (Option.some.inj h).symm
    · split at h
      · cases h
      · exact (Option.some.inj h).symm

/-- Under the contract of `address`, an admitted command's image lies in the store (R53). -/
theorem imageInStore_of_contract {e : Env} {f : Fields} (ha : e.Admits f) (hc : e.AddressContract) :
    e.imageInStore f := by
  refine imageInStore_iff.2 fun x y => ?_
  obtain ⟨h1, h2, h3, h4⟩ := ha.2.2.2 x y
  exact hc.1 _ _ (by omega) (by omega)

/-- Under both contracts, the 64 pixels of an admitted command have 64 indices (R52, R53). -/
theorem pix_injective {e : Env} {f : Fields} (ha : e.Admits f) (hc : e.Contracts f) {x y x' y' : Lane}
    (h : e.pix f x y = e.pix f x' y') : x = x' ∧ y = y' := by
  obtain ⟨h1, h2, h3, h4⟩ := ha.2.2.2 x y
  obtain ⟨h1', h2', h3', h4'⟩ := ha.2.2.2 x' y'
  obtain ⟨hx, hy⟩ := hc.1.2 _ _ _ _ (by omega) (by omega) (by omega) (by omega) h
  exact hc.2 _ _ _ _ (Prod.ext (by omega) (by omega))

/-- Under both contracts, each index of the image is targeted by one pixel. -/
theorem image_count {e : Env} {f : Fields} (ha : e.Admits f) (hc : e.Contracts f) (x y : Lane) :
    (e.image f).count (e.pix f x y) = 1 := by
  have hnodup : (e.image f).Nodup :=
    tileCoords_nodup.map_on fun c _ d _ h => Prod.ext_iff.2 (pix_injective ha hc h)
  exact List.count_eq_one_of_mem hnodup (mem_image.2 ⟨x, y, rfl⟩)

/-- The row-major accessor keeps the contract of R53. -/
theorem rowMajor_contract {e : Env} (h : e.accessor = .rowMajor) : e.AddressContract := by
  have key : ∀ x y, e.address x y = y * e.gridW + x := fun x y => by simp [Env.address, h, Env.rowMajorIndex]
  refine ⟨fun x y hx hy => ?_, fun x y x' y' hx hy hx' hy' heq => ?_⟩
  · rw [key, Env.gridLen]
    nlinarith
  · rw [key, key] at heq
    have hW : 0 < e.gridW := by omega
    have hx2 : x = x' := by
      have := congrArg (· % e.gridW) heq
      simpa [Nat.mul_comm, Nat.mul_add_mod, Nat.mod_eq_of_lt hx, Nat.mod_eq_of_lt hx'] using this
    refine ⟨hx2, ?_⟩
    subst hx2
    exact Nat.eq_of_mul_eq_mul_right hW (Nat.add_right_cancel heq)

/-- The identity transform keeps the contract of R52. -/
theorem identity_contract {e : Env} (h : e.transform = .identity) (f : Fields) : e.AdvanceContract f := by
  intro x y x' y' heq
  simp only [Env.coord, Transform.apply, h, identityTransform, Prod.mk.injEq] at heq
  constructor <;> apply Fin.ext <;> omega

/-- The mirrored transform keeps the contract of R52. -/
theorem mirrored_contract {e : Env} (h : e.transform = .mirrored) (f : Fields) : e.AdvanceContract f := by
  intro x y x' y' heq
  simp only [Env.coord, Transform.apply, h, mirroredTransform, Prod.mk.injEq] at heq
  constructor <;> apply Fin.ext <;> omega

/-- Any function, on any list of arguments, is the `table` of its values there (log 5). -/
theorem transform_table_general (F : Nat × Nat × Nat × Nat → Int × Int) {args : List (Nat × Nat × Nat × Nat)}
    {bx by' dx dy : Nat} (h : (bx, by', dx, dy) ∈ args) :
    (Transform.table (args.map fun a => (a, F a))).apply bx by' dx dy = F (bx, by', dx, dy) := by
  have : ((args.map fun a => (a, F a)).lookup (bx, by', dx, dy)) = some (F (bx, by', dx, dy)) := by
    induction args with
    | nil => cases h
    | cons a args ih =>
      by_cases ha : (bx, by', dx, dy) = a
      · subst ha; simp
      · have hmem : (bx, by', dx, dy) ∈ args := (List.mem_cons.1 h).resolve_left ha
        rw [List.map_cons, List.lookup_cons, beq_eq_false_iff_ne.2 ha]
        exact ih hmem
  simp only [Transform.apply, this, Option.getD_some]

end Sys2Proof.Machine
end

