-- ==== Sys2Proof/Laws/Memory.lean ====
section
/-! SUPPORT. What the memory operations do: a read after a write, the canonical form and the bound each keeps, and lists of
writes. -/

namespace Sys2Proof.Machine

theorem Memory.wf_cons {k : Nat} {v : Byte} {m : Memory} :
    Memory.wf ((k, v) :: m) ↔ (∀ c ∈ m, k < c.1) ∧ v ≠ Memory.unlisted ∧ Memory.wf m := by
  simp [Memory.wf, List.all_eq_true, and_assoc]

/-- An address that no entry lists reads as an unlisted one. -/
theorem Memory.read_unlisted {m : Memory} {a : Nat} (h : ∀ c ∈ m, c.1 ≠ a) : m.read a = Memory.unlisted := by
  induction m with
  | nil => rfl
  | cons c m ih =>
    obtain ⟨k, v⟩ := c
    have hk : k ≠ a := h _ (List.mem_cons_self ..)
    simp [Memory.read, hk.symm, ih fun c hc => h c (List.mem_cons_of_mem _ hc)]

/-- A write leaves every other byte alone. -/
@[simp] theorem Memory.read_write_ne (m : Memory) {a n : Nat} (v : Byte) (h : n ≠ a) :
    (m.write a v).read n = m.read n := by
  induction m with
  | nil => by_cases hv : v = Memory.unlisted <;> simp [Memory.write, Memory.read, hv, h]
  | cons c m ih =>
    obtain ⟨k, w⟩ := c
    simp only [Memory.write]
    split
    · split <;> simp [Memory.read, h]
    · split
      · rename_i _ hk
        subst hk
        split <;> simp [Memory.read, h]
      · simp [Memory.read, ih]

/-- A byte written reads back. -/
theorem Memory.read_write_self {m : Memory} (a : Nat) (v : Byte) (hm : m.wf) : (m.write a v).read a = v := by
  induction m with
  | nil => by_cases hv : v = Memory.unlisted <;> simp [Memory.write, Memory.read, hv]
  | cons c m ih =>
    obtain ⟨k, w⟩ := c
    obtain ⟨hlt, -, hm'⟩ := Memory.wf_cons.1 hm
    simp only [Memory.write]
    split
    · rename_i hak
      split
      · rename_i hv
        rw [hv]
        refine Memory.read_unlisted fun c hc => ?_
        rcases List.mem_cons.1 hc with rfl | hc
        · exact (Nat.ne_of_lt hak).symm
        · exact (Nat.ne_of_lt (Nat.lt_trans hak (hlt c hc))).symm
      · simp [Memory.read]
    · split
      · rename_i _ hk
        subst hk
        split
        · rename_i hv
          rw [hv]
          exact Memory.read_unlisted fun c hc => (Nat.ne_of_lt (hlt c hc)).symm
        · simp [Memory.read]
      · rename_i _ hk
        simp [Memory.read, hk, ih hm']

/-- The addresses a write lists are the old ones and its own. -/
theorem Memory.mem_write {m : Memory} {a : Nat} {v : Byte} {c : Host.Cell} (h : c ∈ m.write a v) :
    c = (a, v) ∨ c ∈ m := by
  induction m with
  | nil =>
    simp only [Memory.write] at h
    split at h <;> simp_all
  | cons d m ih =>
    obtain ⟨k, w⟩ := d
    simp only [Memory.write] at h
    split at h
    · split at h
      · exact .inr h
      · exact List.mem_cons.1 h
    · split at h
      · rename_i _ hk
        subst hk
        split at h
        · exact .inr (List.mem_cons_of_mem _ h)
        · rcases List.mem_cons.1 h with h | h
          · exact .inl h
          · exact .inr (List.mem_cons_of_mem _ h)
      · rcases List.mem_cons.1 h with h | h
        · exact .inr (h ▸ List.mem_cons_self ..)
        · exact (ih h).imp_right (List.mem_cons_of_mem _)

/-- A write keeps the canonical form. -/
theorem Memory.write_wf {m : Memory} (a : Nat) (v : Byte) (hm : m.wf) : (m.write a v).wf := by
  induction m with
  | nil => by_cases hv : v = Memory.unlisted <;> simp [Memory.write, Memory.wf, hv]
  | cons c m ih =>
    obtain ⟨k, w⟩ := c
    obtain ⟨hlt, hw, hm'⟩ := Memory.wf_cons.1 hm
    simp only [Memory.write]
    split
    · rename_i hak
      split
      · exact hm
      · rename_i hv
        refine Memory.wf_cons.2 ⟨fun c hc => ?_, hv, hm⟩
        rcases List.mem_cons.1 hc with rfl | hc
        · exact hak
        · exact Nat.lt_trans hak (hlt c hc)
    · split
      · split
        · exact hm'
        · rename_i _ hv
          exact Memory.wf_cons.2 ⟨hlt, hv, hm'⟩
      · rename_i hak hk
        refine Memory.wf_cons.2 ⟨fun c hc => ?_, hw, ih hm'⟩
        rcases Memory.mem_write hc with rfl | hc
        · show k < a
          omega
        · exact hlt c hc

theorem Memory.below_iff {m : Memory} {n : Nat} : m.below n ↔ ∀ c ∈ m, c.1 < n := by
  simp [Memory.below, List.all_eq_true]

/-- A write inside a space keeps the memory inside it. -/
theorem Memory.write_below {m : Memory} {n a : Nat} (v : Byte) (hm : m.below n) (ha : a < n) :
    (m.write a v).below n := by
  rw [Memory.below_iff] at hm ⊢
  intro c hc
  rcases Memory.mem_write hc with rfl | hc
  · exact ha
  · exact hm c hc

@[simp] theorem Memory.writeAll_nil (m : Memory) : m.writeAll [] = m := rfl

@[simp] theorem Memory.writeAll_cons (m : Memory) (c : Host.Cell) (cells : List Host.Cell) :
    m.writeAll (c :: cells) = (m.write c.1 c.2).writeAll cells := rfl

theorem Memory.writeAll_append (m : Memory) (l k : List Host.Cell) :
    m.writeAll (l ++ k) = (m.writeAll l).writeAll k := List.foldl_append ..

/-- A list of writes keeps the canonical form. -/
theorem Memory.writeAll_wf {m : Memory} (cells : List Host.Cell) (hm : m.wf) : (m.writeAll cells).wf := by
  induction cells generalizing m with
  | nil => exact hm
  | cons c cells ih => exact ih (Memory.write_wf _ _ hm)

/-- A list of writes inside a space keeps the memory inside it. -/
theorem Memory.writeAll_below {m : Memory} {n : Nat} {cells : List Host.Cell} (hm : m.below n)
    (hc : ∀ c ∈ cells, c.1 < n) : (m.writeAll cells).below n := by
  induction cells generalizing m with
  | nil => exact hm
  | cons c cells ih =>
    exact ih (Memory.write_below _ hm (hc c (List.mem_cons_self ..)))
      fun d hd => hc d (List.mem_cons_of_mem _ hd)

/-- A list of writes leaves every byte it does not name alone. -/
theorem Memory.read_writeAll_of_not_mem (m : Memory) {cells : List Host.Cell} {a : Nat} (h : ∀ c ∈ cells, c.1 ≠ a) :
    (m.writeAll cells).read a = m.read a := by
  induction cells generalizing m with
  | nil => rfl
  | cons c cells ih =>
    rw [Memory.writeAll_cons, ih _ fun d hd => h d (List.mem_cons_of_mem _ hd),
      Memory.read_write_ne _ _ (h c (List.mem_cons_self ..)).symm]

/-- A byte that a list of writes names, always with one value, reads as that value. -/
theorem Memory.read_writeAll_of_mem {m : Memory} {cells : List Host.Cell} {a : Nat} {v : Byte} (hm : m.wf)
    (hmem : (a, v) ∈ cells) (hval : ∀ c ∈ cells, c.1 = a → c.2 = v) : (m.writeAll cells).read a = v := by
  induction cells generalizing m with
  | nil => cases hmem
  | cons c cells ih =>
    rw [Memory.writeAll_cons]
    have hval' : ∀ d ∈ cells, d.1 = a → d.2 = v := fun d hd => hval d (List.mem_cons_of_mem _ hd)
    by_cases hrest : ∃ d ∈ cells, d.1 = a
    · obtain ⟨d, hd, rfl⟩ := hrest
      have hdv : d.2 = v := hval' d hd rfl
      exact ih (Memory.write_wf _ _ hm) (hdv ▸ hd) hval'
    · have hnot : ∀ d ∈ cells, d.1 ≠ a := fun d hd hda => hrest ⟨d, hd, hda⟩
      rw [Memory.read_writeAll_of_not_mem _ hnot]
      rcases List.mem_cons.1 hmem with rfl | hin
      · exact Memory.read_write_self _ _ hm
      · exact absurd rfl (hnot _ hin)

/-- Memories in canonical form that read the same are the same data. -/
theorem Memory.ext_of_wf {m m' : Memory} (hm : m.wf) (hm' : m'.wf) (h : ∀ a, m.read a = m'.read a) : m = m' := by
  induction m generalizing m' with
  | nil =>
    cases m' with
    | nil => rfl
    | cons c m' =>
      obtain ⟨k, v⟩ := c
      obtain ⟨-, hv, -⟩ := Memory.wf_cons.1 hm'
      have := h k
      simp only [Memory.read, if_true] at this
      exact absurd this.symm hv
  | cons c m ih =>
    obtain ⟨k, v⟩ := c
    obtain ⟨hlt, hv, hwf⟩ := Memory.wf_cons.1 hm
    cases m' with
    | nil =>
      have := h k
      simp only [Memory.read, if_true] at this
      exact absurd this hv
    | cons c' m' =>
      obtain ⟨k', v'⟩ := c'
      obtain ⟨hlt', hv', hwf'⟩ := Memory.wf_cons.1 hm'
      have above : ∀ {m : Memory} {j n : Nat}, (∀ c ∈ m, j < c.1) → n ≤ j → m.read n = Memory.unlisted :=
        fun hj hn => Memory.read_unlisted fun c hc => by have := hj c hc; omega
      have hkk : k = k' := by
        by_contra hne
        rcases Nat.lt_or_gt_of_ne hne with hk | hk
        · have h1 := h k
          simp only [Memory.read, if_true, if_neg hne] at h1
          exact hv (h1.trans (above hlt' hk.le))
        · have h1 := h k'
          simp only [Memory.read, if_true, if_neg (Ne.symm hne)] at h1
          exact hv' (h1.symm.trans (above hlt hk.le))
      subst hkk
      have hvv : v = v' := by simpa [Memory.read] using h k
      subst hvv
      refine congrArg _ (ih hwf hwf' fun a => ?_)
      by_cases ha : a = k
      · subst ha
        rw [above hlt le_rfl, above hlt' le_rfl]
      · simpa [Memory.read, ha] using h a

end Sys2Proof.Machine
end

