-- ==== Sys2Proof/Laws/Exec.lean ====
section
/-! SUPPORT. What the two commands do: when each raises, when each runs, and what the lists of writes of each leave in a
memory. -/

namespace Sys2Proof.Machine

/-! ### The writes of DECODE -/

theorem mem_unpackedCells {e : Env} {f : Fields} {p : Memory} {n : Nat} {c : Host.Cell} :
    c ∈ e.unpackedCells f p n ↔ ∃ x y, (e.pix f x y, e.unpackedByte f p n x y) = c := by
  simp [Env.unpackedCells]

/-- Where one pixel targets an index, its byte is the pixel. -/
theorem unpackedByte_of_count {e : Env} {f : Fields} {p : Memory} {n : Nat} {x y : Lane}
    (h : (e.image f).count (e.pix f x y) = 1) : e.unpackedByte f p n x y = unpackedPixel p f x y := if_pos h

/-- Two pixels with one index are written the same byte. -/
theorem unpackedByte_congr {e : Env} {f : Fields} {p : Memory} {n : Nat} {x y x' y' : Lane}
    (h : e.pix f x' y' = e.pix f x y) : e.unpackedByte f p n x' y' = e.unpackedByte f p n x y := by
  by_cases hxy : x' = x ∧ y' = y
  · rw [hxy.1, hxy.2]
  · have hcount : (e.image f).count (e.pix f x y) ≠ 1 := by
      intro h1
      have hmem : ∀ c : Lane × Lane, c ∈ tileCoords.filter (fun c => e.pix f c.1 c.2 == e.pix f x y) ↔
          e.pix f c.1 c.2 = e.pix f x y := fun c => by simp
      have hlen : (tileCoords.filter fun c => e.pix f c.1 c.2 == e.pix f x y).length = 1 := by
        rw [← List.countP_eq_length_filter]
        rwa [Env.image, List.count, List.countP_map] at h1
      obtain ⟨c, hc⟩ := List.length_eq_one_iff.1 hlen
      have h2 : (x, y) = c := by simpa [hc] using (hmem (x, y)).2 rfl
      have h3 : (x', y') = c := by simpa [hc] using (hmem (x', y')).2 h
      exact hxy ⟨congrArg Prod.fst (h3.trans h2.symm), congrArg Prod.snd (h3.trans h2.symm)⟩
    simp only [Env.unpackedByte, h, if_neg hcount]

/-- DECODE's writes leave at each index of the image the byte of its pixel. -/
theorem read_unpackedCells {e : Env} {f : Fields} {p g : Memory} {n : Nat} (hg : g.wf) (x y : Lane) :
    (g.writeAll (e.unpackedCells f p n)).read (e.pix f x y) = e.unpackedByte f p n x y := by
  refine Memory.read_writeAll_of_mem hg (mem_unpackedCells.2 ⟨x, y, rfl⟩) fun c hc hk => ?_
  obtain ⟨x', y', rfl⟩ := mem_unpackedCells.1 hc
  exact unpackedByte_congr hk

/-- DECODE's writes leave every byte outside the image alone. -/
theorem read_unpackedCells_of_not_inImage {e : Env} {f : Fields} (p g : Memory) (n : Nat) {i : Nat}
    (h : ¬ e.InImage f i) : (g.writeAll (e.unpackedCells f p n)).read i = g.read i := by
  refine Memory.read_writeAll_of_not_mem g fun c hc hk => h ?_
  obtain ⟨x, y, rfl⟩ := mem_unpackedCells.1 hc
  exact ⟨x, y, hk⟩

/-! ### The writes of ENCODE -/

theorem mem_packedCells {e : Env} {f : Fields} {g : Memory} {c : Host.Cell} :
    c ∈ e.packedCells f g ↔ ∃ b y, (planarAddr f b y, e.packedByte f g b y) = c := by
  simp [Env.packedCells]

/-- ENCODE's writes leave at each plane address the byte of its plane and row. -/
theorem read_packedCells {e : Env} {f : Fields} {p g : Memory} (hp : p.wf) (b y : Lane) :
    (p.writeAll (e.packedCells f g)).read (planarAddr f b y) = e.packedByte f g b y := by
  refine Memory.read_writeAll_of_mem hp (mem_packedCells.2 ⟨b, y, rfl⟩) fun c hc hk => ?_
  obtain ⟨b', y', rfl⟩ := mem_packedCells.1 hc
  obtain ⟨rfl, rfl⟩ := planarAddr_injective hk
  rfl

/-- ENCODE's writes leave every byte outside the footprint alone. -/
theorem read_packedCells_of_not_inFootprint {e : Env} {f : Fields} (p g : Memory) {a : Nat}
    (h : ¬ InFootprint f a) : (p.writeAll (e.packedCells f g)).read a = p.read a := by
  refine Memory.read_writeAll_of_not_mem p fun c hc hk => h ?_
  obtain ⟨b, y, rfl⟩ := mem_packedCells.1 hc
  exact hk ▸ planarAddr_inFootprint f b y

/-! ### When a command raises, runs or is refused -/

/-- The state DECODE leaves when it runs. -/
theorem execDecode_of_admits {f : Fields} {s : State} (ha : s.env.Admits f) (hi : s.env.imageInStore f) :
    execDecode f s = .next ((s.withG (s.g.writeAll (s.env.unpackedCells f s.p s.draws))).respond (.decode f) .ok) := by
  simp [execDecode, check_eq_none_iff.2 ha, hi]

/-- The state ENCODE leaves when it runs. -/
theorem execEncode_of_admits {f : Fields} {s : State} (ha : s.env.Admits f) (hi : s.env.imageInStore f) :
    execEncode f s = .next ((s.withP (s.p.writeAll (s.env.packedCells f s.g))).respond (.encode f) .ok) := by
  simp [execEncode, check_eq_none_iff.2 ha, hi]

/-- A command that fails a check raises, whichever it is. -/
theorem exec_of_check {i : Instr} {s : State} {k : CodecFault} (h : s.env.check i.fields = some k) :
    exec i s = .next (s.raise i k) := by
  cases i <;> simp_all [exec, execDecode, execEncode, Instr.fields]

/-- All that DECODE can do when it answers a next state. -/
theorem execDecode_next {f : Fields} {s t : State} (h : execDecode f s = .next t) :
    (∃ k, s.env.check f = some k ∧ t = s.raise (.decode f) k) ∨
    (s.env.Admits f ∧ s.env.imageInStore f ∧
      t = (s.withG (s.g.writeAll (s.env.unpackedCells f s.p s.draws))).respond (.decode f) .ok) := by
  unfold execDecode at h
  split at h
  · exact .inl ⟨_, ‹_›, (Host.Outcome.next.inj h).symm⟩
  · split at h
    · exact .inr ⟨check_eq_none_iff.1 ‹_›, ‹_›, (Host.Outcome.next.inj h).symm⟩
    · cases h

/-- All that ENCODE can do when it answers a next state. -/
theorem execEncode_next {f : Fields} {s t : State} (h : execEncode f s = .next t) :
    (∃ k, s.env.check f = some k ∧ t = s.raise (.encode f) k) ∨
    (s.env.Admits f ∧ s.env.imageInStore f ∧
      t = (s.withP (s.p.writeAll (s.env.packedCells f s.g))).respond (.encode f) .ok) := by
  unfold execEncode at h
  split at h
  · exact .inl ⟨_, ‹_›, (Host.Outcome.next.inj h).symm⟩
  · split at h
    · exact .inr ⟨check_eq_none_iff.1 ‹_›, ‹_›, (Host.Outcome.next.inj h).symm⟩
    · cases h

/-- All that a command can do when it answers a next state: it raises, or it gives one memory its writes and responds
`OK`. -/
theorem exec_next {i : Instr} {s t : State} (h : exec i s = .next t) :
    (∃ k, s.env.check i.fields = some k ∧ t = s.raise i k) ∨
    (s.env.Admits i.fields ∧ s.env.imageInStore i.fields ∧
      ∃ p g, t = ((s.withP p).withG g).respond i .ok ∧
        ((∃ f, i = .decode f ∧ p = s.p ∧ g = s.g.writeAll (s.env.unpackedCells f s.p s.draws)) ∨
         (∃ f, i = .encode f ∧ g = s.g ∧ p = s.p.writeAll (s.env.packedCells f s.g)))) := by
  cases i with
  | decode f =>
    refine (execDecode_next h).imp_right fun ⟨ha, hi, ht⟩ =>
      ⟨ha, hi, s.p, s.g.writeAll (s.env.unpackedCells f s.p s.draws), ?_, .inl ⟨f, rfl, rfl, rfl⟩⟩
    rw [ht, State.withP_self]
  | encode f =>
    refine (execEncode_next h).imp_right fun ⟨ha, hi, ht⟩ =>
      ⟨ha, hi, s.p.writeAll (s.env.packedCells f s.g), s.g, ?_, .inr ⟨f, rfl, rfl, rfl⟩⟩
    rw [ht, State.withP_withG_self]

/-- A command never faults; it is refused only where `address` breaks its contract (R53, U5). -/
theorem exec_refused {i : Instr} {s : State} {r : Refusal} (h : exec i s = .refused r) :
    r = .accessorContract ∧ s.env.Admits i.fields ∧ ¬ s.env.imageInStore i.fields := by
  cases i <;>
  · simp only [exec, execDecode, execEncode] at h
    split at h
    · cases h
    · split at h
      · cases h
      · exact ⟨(Host.Outcome.refused.inj h).symm, check_eq_none_iff.1 ‹_›, ‹_›⟩

end Sys2Proof.Machine
end

