-- ==== Sys2Proof/Laws/Access.lean ====
section
/-! SUPPORT. What each piece of the access sequences does, said once, from the innermost step outwards. -/

namespace Sys2Proof.Machine

theorem lanes_nodup : lanes.Nodup := by decide

/-- The one-bit working value, widened, is the bit normalised to bit 0 (R121). -/
theorem setWidth_extractBit (v : Byte) (n : Lane) : (extractBit v n.val).setWidth 8 = (v >>> n.val) &&& 1 := by
  apply BitVec.eq_of_getLsbD_eq
  intro j hj
  have hn : n.val < 8 := n.isLt
  simp only [extractBit, BitVec.getLsbD_setWidth, BitVec.getLsbD_ushiftRight, BitVec.getLsbD_and,
    BitVec.getLsbD_shiftLeft, show (1 : Byte) = 1#8 from rfl, BitVec.getLsbD_one]
  by_cases h0 : j = 0
  · subst h0; simp [hn]
  · simp [h0]

theorem columnMask_getLsbD (x j : Lane) : (columnMask x).getLsbD (7 - j.val) = decide (j ≠ x) := by
  revert x j; decide

/-- Replacing a column gives that column the pixel's bit and keeps the other seven (R111, R126). -/
theorem replaceColumn_getLsbD (cur pixel : Byte) (x b j : Lane) :
    (replaceColumn cur pixel x b).getLsbD (7 - j.val) =
      if j = x then pixel.getLsbD b.val else cur.getLsbD (7 - j.val) := by
  rw [replaceColumn, placePlaneBit_getLsbD, BitVec.getLsbD_and, columnMask_getLsbD]
  by_cases h : j = x <;> simp [h]

/-- Replacing several columns, each once. -/
theorem foldl_replaceColumn_getLsbD {xs : List Lane} (hxs : xs.Nodup) (cur : Byte) (pixel : Lane → Byte) (b j : Lane) :
    (xs.foldl (fun cur x => replaceColumn cur (pixel x) x b) cur).getLsbD (7 - j.val) =
      if j ∈ xs then (pixel j).getLsbD b.val else cur.getLsbD (7 - j.val) := by
  induction xs generalizing cur with
  | nil => simp
  | cons x xs ih =>
    rw [List.foldl_cons, ih (List.nodup_cons.1 hxs).2, replaceColumn_getLsbD]
    by_cases h : j ∈ xs
    · simp [h]
    · by_cases hx : j = x
      · subst hx; simp [h]
      · simp [h, hx]

/-! ### DECODE -/

section Unpack
variable (e : Env) (f : Fields)

theorem unpackBit_p (x y b : Lane) (r : AccessRun) : (r.unpackBit f x y b).p = r.p := rfl

theorem unpackBit_g (x y b : Lane) (r : AccessRun) : (r.unpackBit f x y b).g = r.g := rfl

theorem unpackBit_trace (x y b : Lane) (r : AccessRun) :
    (r.unpackBit f x y b).trace = .pRead (planarAddr f b y) :: r.trace := rfl

theorem unpackBit_pixel (x y b : Lane) (r : AccessRun) : (r.unpackBit f x y b).work.pixel =
    r.work.pixel ||| (columnBit (r.p.read (planarAddr f b y)) x <<< b.val) := by
  have hdef : (r.unpackBit f x y b).work.pixel = r.work.pixel |||
    ((extractBit (r.p.read (planarAddr f b y)) (7 - x.val)).setWidth 8 <<< b.val) := rfl
  have hx : 7 - x.val = x.rev.val := by simp [Fin.val_rev]
  rw [hdef, hx, setWidth_extractBit, ← hx]
  rfl

theorem unpackBits_spec (x y : Lane) (bs : List Lane) (r : AccessRun) :
    (bs.foldl (AccessRun.unpackBit f x y) r).p = r.p ∧ (bs.foldl (AccessRun.unpackBit f x y) r).g = r.g ∧
    (bs.foldl (AccessRun.unpackBit f x y) r).work.pixel =
      bs.foldl (fun v b => v ||| (columnBit (r.p.read (planarAddr f b y)) x <<< b.val)) r.work.pixel ∧
    (bs.foldl (AccessRun.unpackBit f x y) r).trace =
      (bs.map fun b => Access.pRead (planarAddr f b y)).reverse ++ r.trace := by
  induction bs generalizing r with
  | nil => exact ⟨rfl, rfl, rfl, rfl⟩
  | cons b bs ih =>
    obtain ⟨h1, h2, h3, h4⟩ := ih (r.unpackBit f x y b)
    rw [unpackBit_p, unpackBit_pixel] at h3
    refine ⟨h1, h2, h3, h4.trans ?_⟩
    rw [unpackBit_trace]
    simp

/-- One pixel of R101 reads its eight plane bytes and writes the pixel DECODE gives it. -/
theorem unpackPixel_spec (c : Lane × Lane) (r : AccessRun) :
    (r.unpackPixel e f c).p = r.p ∧
    (r.unpackPixel e f c).g = r.g.write (e.pix f c.1 c.2) (unpackedPixel r.p f c.1 c.2) ∧
    (r.unpackPixel e f c).trace = .gWrite (e.pix f c.1 c.2) ::
      (lanes.map fun b => Access.pRead (planarAddr f b c.2)).reverse ++ r.trace := by
  obtain ⟨h1, h2, h3, h4⟩ := unpackBits_spec f c.1 c.2 lanes { r with work := { r.work with pixel := 0 } }
  unfold AccessRun.unpackPixel
  rw [AccessRun.gWrite_p, AccessRun.gWrite_g, AccessRun.gWrite_trace, h1, h2, h3, h4]
  exact ⟨rfl, rfl, rfl⟩

/-- Several pixels of R101, in the order given. -/
theorem unpackPixels_spec (cs : List (Lane × Lane)) (r : AccessRun) :
    (cs.foldl (AccessRun.unpackPixel e f) r).p = r.p ∧
    (cs.foldl (AccessRun.unpackPixel e f) r).g =
      r.g.writeAll (cs.map fun c => (e.pix f c.1 c.2, unpackedPixel r.p f c.1 c.2)) := by
  induction cs generalizing r with
  | nil => exact ⟨rfl, rfl⟩
  | cons c cs ih =>
    obtain ⟨h1, h2, -⟩ := unpackPixel_spec e f c r
    obtain ⟨i1, i2⟩ := ih (r.unpackPixel e f c)
    rw [List.foldl_cons, i1, i2, h1, h2]
    exact ⟨rfl, rfl⟩

end Unpack

/-! ### ENCODE -/

section Pack
variable (e : Env) (f : Fields)

theorem packBit_g (x y b : Lane) (r : AccessRun) : (r.packBit f x y b).g = r.g := rfl

theorem packBit_mask (x y b : Lane) (r : AccessRun) : (r.packBit f x y b).work.mask = r.work.mask := rfl

theorem packBit_pixel (x y b : Lane) (r : AccessRun) : (r.packBit f x y b).work.pixel = r.work.pixel := rfl

theorem packBit_trace (x y b : Lane) (r : AccessRun) :
    (r.packBit f x y b).trace = .pWrite (planarAddr f b y) :: .pRead (planarAddr f b y) :: r.trace := rfl

/-- The innermost step of R111 replaces one column of one plane byte. -/
theorem packBit_p {x : Lane} (y b : Lane) {r : AccessRun} (hm : r.work.mask = columnMask x) :
    (r.packBit f x y b).p =
      r.p.write (planarAddr f b y) (replaceColumn (r.p.read (planarAddr f b y)) r.work.pixel x b) := by
  have hdef : (r.packBit f x y b).p = r.p.write (planarAddr f b y) ((r.p.read (planarAddr f b y) &&& r.work.mask) |||
    ((extractBit r.work.pixel b.val).setWidth 8 <<< (7 - x.val))) := rfl
  rw [hdef, setWidth_extractBit, hm]
  rfl

/-- Several planes of one pixel of R111. -/
theorem packBits_spec {x : Lane} (y : Lane) {bs : List Lane} (hbs : bs.Nodup) {r : AccessRun}
    (hm : r.work.mask = columnMask x) (hp : r.p.wf) :
    (bs.foldl (AccessRun.packBit f x y) r).p.wf ∧ (bs.foldl (AccessRun.packBit f x y) r).g = r.g ∧
    (bs.foldl (AccessRun.packBit f x y) r).work.mask = r.work.mask ∧
    (∀ b ∈ bs, (bs.foldl (AccessRun.packBit f x y) r).p.read (planarAddr f b y) =
      replaceColumn (r.p.read (planarAddr f b y)) r.work.pixel x b) ∧
    ∀ a, (∀ b ∈ bs, a ≠ planarAddr f b y) → (bs.foldl (AccessRun.packBit f x y) r).p.read a = r.p.read a := by
  induction bs generalizing r with
  | nil => simp [hp]
  | cons b bs ih =>
    obtain ⟨hb, hbs'⟩ := List.nodup_cons.1 hbs
    have h1 := packBit_p f y b hm
    have h2 := packBit_g f x y b r
    have h3 := packBit_mask f x y b r
    have h4 := packBit_pixel f x y b r
    rw [List.foldl_cons]
    generalize r.packBit f x y b = q at h1 h2 h3 h4 ⊢
    obtain ⟨i1, i2, i3, i4, i5⟩ := ih (r := q) hbs' (h3.trans hm) (h1 ▸ Memory.write_wf _ _ hp)
    refine ⟨i1, i2.trans h2, i3.trans h3, fun b' hb' => ?_, fun a ha => ?_⟩
    · rcases List.mem_cons.1 hb' with rfl | hb'
      · rw [i5 _ fun c hc heq => hb (by rwa [(planarAddr_injective heq).1]), h1, Memory.read_write_self _ _ hp]
      · rw [i4 b' hb', h1, h4, Memory.read_write_ne _ _ fun heq => hb (by rwa [← (planarAddr_injective heq).1])]
    · rw [i5 a fun c hc => ha c (List.mem_cons_of_mem _ hc), h1, Memory.read_write_ne _ _ (ha b (List.mem_cons_self ..))]

/-- Several rows of one column of R111. -/
theorem packPixels_spec {x : Lane} {ys : List Lane} (hys : ys.Nodup) {r : AccessRun}
    (hm : r.work.mask = columnMask x) (hp : r.p.wf) :
    (ys.foldl (AccessRun.packPixel e f x) r).p.wf ∧ (ys.foldl (AccessRun.packPixel e f x) r).g = r.g ∧
    (∀ y ∈ ys, ∀ b, (ys.foldl (AccessRun.packPixel e f x) r).p.read (planarAddr f b y) =
      replaceColumn (r.p.read (planarAddr f b y)) (r.g.read (e.pix f x y)) x b) ∧
    ∀ a, (∀ y ∈ ys, ∀ b, a ≠ planarAddr f b y) →
      (ys.foldl (AccessRun.packPixel e f x) r).p.read a = r.p.read a := by
  induction ys generalizing r with
  | nil => simp [hp]
  | cons y ys ih =>
    obtain ⟨hy, hys'⟩ := List.nodup_cons.1 hys
    obtain ⟨h1, h2, h3, h4, h5⟩ : (r.packPixel e f x y).p.wf ∧ (r.packPixel e f x y).g = r.g ∧
        (r.packPixel e f x y).work.mask = r.work.mask ∧
        (∀ b ∈ lanes, (r.packPixel e f x y).p.read (planarAddr f b y) =
          replaceColumn (r.p.read (planarAddr f b y)) (r.g.read (e.pix f x y)) x b) ∧
        ∀ a, (∀ b ∈ lanes, a ≠ planarAddr f b y) → (r.packPixel e f x y).p.read a = r.p.read a :=
      packBits_spec f y lanes_nodup (r := r.gRead (e.pix f x y)) hm hp
    rw [List.foldl_cons]
    generalize r.packPixel e f x y = q at h1 h2 h3 h4 h5 ⊢
    obtain ⟨i1, i2, i4, i5⟩ := ih (r := q) hys' (h3.trans hm) h1
    refine ⟨i1, i2.trans h2, fun y' hy' b => ?_, fun a ha => ?_⟩
    · rcases List.mem_cons.1 hy' with rfl | hy'
      · rw [i5 _ fun c hc d heq => hy (by rwa [(planarAddr_injective heq).2]), h4 b (mem_lanes b)]
      · rw [i4 y' hy' b, h2, h5 _ fun c _ heq => hy (by rwa [← (planarAddr_injective heq).2])]
    · rw [i5 a fun c hc => ha c (List.mem_cons_of_mem _ hc), h5 a fun b _ => ha y (List.mem_cons_self ..) b]

/-- One column of R111 replaces that column of every plane byte. -/
theorem packColumn_spec (x : Lane) {r : AccessRun} (hp : r.p.wf) :
    (r.packColumn e f x).p.wf ∧ (r.packColumn e f x).g = r.g ∧
    (∀ b y, (r.packColumn e f x).p.read (planarAddr f b y) =
      replaceColumn (r.p.read (planarAddr f b y)) (r.g.read (e.pix f x y)) x b) ∧
    ∀ a, ¬ InFootprint f a → (r.packColumn e f x).p.read a = r.p.read a := by
  obtain ⟨h1, h2, h3, h4⟩ := packPixels_spec e f (x := x) lanes_nodup
    (r := { r with work := { r.work with mask := columnMask x } }) rfl hp
  have hdef : r.packColumn e f x =
    lanes.foldl (AccessRun.packPixel e f x) { r with work := { r.work with mask := columnMask x } } := rfl
  rw [hdef]
  generalize lanes.foldl (AccessRun.packPixel e f x) { r with work := { r.work with mask := columnMask x } } = q
    at h1 h2 h3 h4 ⊢
  exact ⟨h1, h2, fun b y => h3 y (mem_lanes y) b,
    fun a ha => h4 a fun y _ b heq => ha (heq ▸ planarAddr_inFootprint f b y)⟩

/-- Several columns of R111, in the order given. -/
theorem packColumns_spec (xs : List Lane) {r : AccessRun} (hp : r.p.wf) :
    (r.packColumns e f xs).p.wf ∧ (r.packColumns e f xs).g = r.g ∧
    (∀ b y, (r.packColumns e f xs).p.read (planarAddr f b y) =
      xs.foldl (fun cur x => replaceColumn cur (r.g.read (e.pix f x y)) x b) (r.p.read (planarAddr f b y))) ∧
    ∀ a, ¬ InFootprint f a → (r.packColumns e f xs).p.read a = r.p.read a := by
  induction xs generalizing r with
  | nil => exact ⟨hp, rfl, fun _ _ => rfl, fun _ _ => rfl⟩
  | cons x xs ih =>
    obtain ⟨h1, h2, h3, h4⟩ := packColumn_spec e f x hp
    have hdef : r.packColumns e f (x :: xs) = (r.packColumn e f x).packColumns e f xs := by
      simp only [AccessRun.packColumns, List.foldl_cons]
    rw [hdef]
    generalize r.packColumn e f x = q at h1 h2 h3 h4 ⊢
    obtain ⟨i1, i2, i3, i4⟩ := ih (r := q) h1
    refine ⟨i1, i2.trans h2, fun b y => ?_, fun a ha => (i4 a ha).trans (h4 a ha)⟩
    rw [i3 b y, h2, h3, List.foldl_cons]

end Pack

end Sys2Proof.Machine
end

