-- ==== Sys2Proof/Laws/Words.lean ====
section
/-! SUPPORT. The bit fields of a `CMD` word. -/

namespace Sys2Proof

theorem bitsAt_eq (w lo len : Nat) : bitsAt w lo len = w / 2 ^ lo % 2 ^ len := by
  simp [bitsAt, Nat.shiftRight_eq_div_pow]

theorem bitsAt_lt (w lo len : Nat) : bitsAt w lo len < 2 ^ len := Nat.mod_lt _ (Nat.two_pow_pos len)

/-- What the decoder answers: the command selected by bit 0, for a word of at most `cmdBits` bits. -/
theorem decode_of_lt {ws : Widths} {w : Nat} (h : w < 2 ^ cmdBits ws) :
    decode ws w = .ok (if bitsAt w 0 1 = 0 then .decode (decodeFields ws w) else .encode (decodeFields ws w)) :=
  if_pos h

theorem decode_of_ge {ws : Widths} {w : Nat} (h : 2 ^ cmdBits ws ≤ w) : decode ws w = .error .wordTooWide :=
  if_neg (Nat.not_lt.2 h)

/-- Every decoded command is well formed (R71). -/
theorem decode_wf {ws : Widths} {w : Nat} {i : Instr} (h : decode ws w = .ok i) : i.wf ws := by
  have hf : (decodeFields ws w).wf ws := by
    simp [Fields.wf, decodeFields, bitsAt_lt]
  by_cases hw : w < 2 ^ cmdBits ws
  · rw [decode_of_lt hw] at h
    obtain rfl := Except.ok.inj h
    split <;> exact hf
  · rw [decode_of_ge (Nat.not_lt.1 hw)] at h
    cases h

/-- The fields of a well-formed command, summed at their places, fit the word. -/
theorem encodeFields_lt {ws : Widths} {f : Fields} (h : f.wf ws) : 1 + encodeFields ws f < 2 ^ cmdBits ws := by
  simp only [Fields.wf, Bool.and_eq_true, decide_eq_true_eq] at h
  obtain ⟨⟨ha, hx⟩, hy⟩ := h
  have hw := f.width.isLt
  have hh := f.height.isLt
  simp only [encodeFields, cmdBits, Nat.shiftLeft_eq]
  have e1 : 2 ^ (17 + ws.addrW) = 131072 * 2 ^ ws.addrW := by rw [pow_add]; norm_num
  have e2 : 2 ^ (17 + ws.addrW + ws.coordW) = 131072 * 2 ^ ws.addrW * 2 ^ ws.coordW := by rw [pow_add, e1]
  have e3 : 2 ^ (17 + ws.addrW + 2 * ws.coordW) = 131072 * 2 ^ ws.addrW * 2 ^ ws.coordW * 2 ^ ws.coordW := by
    rw [two_mul, ← Nat.add_assoc, pow_add, e2]
  rw [e1, e2, e3]
  have hlow : f.width.toNat * 2 ^ 1 + f.height.toNat * 2 ^ 9 ≤ 131072 - 2 := by omega
  have hA : f.tileAddr * 2 ^ 17 ≤ 131072 * (2 ^ ws.addrW - 1) := by
    have : f.tileAddr ≤ 2 ^ ws.addrW - 1 := by omega
    nlinarith
  have hX : f.baseX * (131072 * 2 ^ ws.addrW) ≤ 131072 * 2 ^ ws.addrW * (2 ^ ws.coordW - 1) := by
    rw [Nat.mul_comm]
    exact Nat.mul_le_mul_left _ (by omega)
  have hY : f.baseY * (131072 * 2 ^ ws.addrW * 2 ^ ws.coordW) ≤
      131072 * 2 ^ ws.addrW * 2 ^ ws.coordW * (2 ^ ws.coordW - 1) := by
    rw [Nat.mul_comm]
    exact Nat.mul_le_mul_left _ (by omega)
  have hApos := Nat.two_pow_pos ws.addrW
  have hCpos := Nat.two_pow_pos ws.coordW
  have hX' : 131072 * 2 ^ ws.addrW * (2 ^ ws.coordW - 1) + 131072 * 2 ^ ws.addrW =
      131072 * 2 ^ ws.addrW * 2 ^ ws.coordW := by
    rw [← Nat.mul_succ]; congr 1; omega
  have hY' : 131072 * 2 ^ ws.addrW * 2 ^ ws.coordW * (2 ^ ws.coordW - 1) +
      131072 * 2 ^ ws.addrW * 2 ^ ws.coordW = 131072 * 2 ^ ws.addrW * 2 ^ ws.coordW * 2 ^ ws.coordW := by
    rw [← Nat.mul_succ]; congr 1; omega
  omega

end Sys2Proof
end

