-- ==== Sys2Proof/Laws/PerInstr.lean ====
section
/-! SUPPORT. Facts about every command as syntax, one lemma for each constructor of `Instr`. -/

namespace Sys2Proof.Laws.EncodeFits

/-- The word of a well-formed command has at most `17 + ADDR_W + 2*COORD_W` bits (R72). -/
def Statement (i : Instr) : Prop := ∀ ws, i.wf ws → Sys2Proof.encode ws i < 2 ^ cmdBits ws

theorem decode (f : Fields) : Statement (.decode f) := fun ws h => by
  have := encodeFields_lt (ws := ws) (f := f) h
  simp only [Sys2Proof.encode, Instr.op, Instr.fields]
  omega

theorem encode (f : Fields) : Statement (.encode f) := fun ws h => by
  have := encodeFields_lt (ws := ws) (f := f) h
  simp only [Sys2Proof.encode, Instr.op, Instr.fields]
  omega

end Sys2Proof.Laws.EncodeFits
end

