-- ==== Sys2Proof/Laws/Races.lean ====
section
/-! SUPPORT. What agents access and when two of them race. -/

namespace Sys2Proof.Machine

theorem meets_eq_true {l k : List Nat} : meets l k = true ↔ ∃ n, n ∈ l ∧ n ∈ k := by simp [meets]

theorem meets_eq_false {l k : List Nat} : meets l k = false ↔ ∀ n, n ∈ l → n ∉ k := by simp [meets]

theorem races_empty_right (a : AccessSet) : a.races .empty = false := by simp [AccessSet.races, AccessSet.empty, meets]

theorem races_empty_left (a : AccessSet) : AccessSet.empty.races a = false := by
  simp [AccessSet.races, AccessSet.empty, meets]

/-- Racing is symmetric (R59). -/
theorem races_comm (a b : AccessSet) : a.races b = b.races a := by
  simp only [AccessSet.races]
  generalize meets a.pWrites _ = p, meets b.pWrites _ = q, meets a.gWrites _ = r, meets b.gWrites _ = s
  revert p q r s
  decide

/-- What an admitted DECODE accesses (R43). -/
theorem accesses_decode {e : Env} {f : Fields} (ha : e.Admits f) :
    e.accesses (.decode f) = ⟨footprint f, [], [], e.image f⟩ := by
  have := check_eq_none_iff.2 ha
  simp [Env.accesses, Instr.fields, this]

/-- What an admitted ENCODE accesses (R43). -/
theorem accesses_encode {e : Env} {f : Fields} (ha : e.Admits f) :
    e.accesses (.encode f) = ⟨footprint f, footprint f, e.image f, []⟩ := by
  have := check_eq_none_iff.2 ha
  simp [Env.accesses, Instr.fields, this]

/-- A command that fails its checks accesses nothing (R145). -/
theorem accesses_of_not_admits {e : Env} {i : Instr} (h : ¬ e.Admits i.fields) : e.accesses i = .empty := by
  cases hk : e.check i.fields with
  | none => exact absurd (check_eq_none_iff.1 hk) h
  | some k => simp [Env.accesses, hk]

/-- Two footprints share an address where their tile addresses are less than 64 apart (R61). -/
theorem footprints_meet {f f' : Fields} : (∃ n, n ∈ footprint f ∧ n ∈ footprint f') ↔
    f.tileAddr < f'.tileAddr + 64 ∧ f'.tileAddr < f.tileAddr + 64 := by
  simp only [mem_footprint, InFootprint]
  constructor
  · rintro ⟨n, h, h'⟩
    omega
  · intro h
    exact ⟨max f.tileAddr f'.tileAddr, by omega, by omega⟩

/-- When two admitted commands race (R60 to R62): on `P` where one is an ENCODE, on `G` where one is a DECODE. -/
theorem races_iff {e : Env} {i j : Instr} (hi : e.Admits i.fields) (hj : e.Admits j.fields) :
    (e.accesses i).races (e.accesses j) = true ↔
      ((i.op = 1 ∨ j.op = 1) ∧ i.fields.tileAddr < j.fields.tileAddr + 64 ∧
        j.fields.tileAddr < i.fields.tileAddr + 64) ∨
      ((i.op = 0 ∨ j.op = 0) ∧ ∃ n, e.InImage i.fields n ∧ e.InImage j.fields n) := by
  cases i with
  | decode f =>
    cases j with
    | decode f' =>
      rw [accesses_decode (f := f) hi, accesses_decode (f := f') hj]
      simp only [AccessSet.races, Bool.or_eq_true, meets_eq_true, Instr.op, Instr.fields, List.nil_append, mem_image]
      simp [and_comm]
    | encode f' =>
      rw [accesses_decode (f := f) hi, accesses_encode (f := f') hj]
      simp only [AccessSet.races, Bool.or_eq_true, meets_eq_true, Instr.op, Instr.fields, List.nil_append,
        List.append_nil, footprints_meet, mem_image]
      simp [and_comm]
  | encode f =>
    cases j with
    | decode f' =>
      rw [accesses_encode (f := f) hi, accesses_decode (f := f') hj]
      simp only [AccessSet.races, Bool.or_eq_true, meets_eq_true, Instr.op, Instr.fields, List.nil_append,
        List.append_nil, footprints_meet, mem_image]
      simp [and_comm]
    | encode f' =>
      rw [accesses_encode (f := f) hi, accesses_encode (f := f') hj]
      simp only [AccessSet.races, Bool.or_eq_true, meets_eq_true, Instr.op, Instr.fields, List.mem_append, or_self,
        List.append_nil, footprints_meet]
      simp [and_comm]

section HostAccess
variable {e : Env} {j : Instr} (hj : e.Admits j.fields)
include hj

/-- A host write of a footprint byte races (R62, R177). -/
theorem races_writePlanar (a : Nat) (v : Byte) :
    (HostAction.writePlanar a v).accesses.races (e.accesses j) = true ↔ InFootprint j.fields a := by
  cases j with
  | decode f => rw [accesses_decode (f := f) hj]; simp [AccessSet.races, HostAction.accesses, meets, mem_footprint, Instr.fields]
  | encode f => rw [accesses_encode (f := f) hj]; simp [AccessSet.races, HostAction.accesses, meets, mem_footprint, Instr.fields]

/-- A host write of an image byte races (R62, R177). -/
theorem races_writePixel (n : Nat) (v : Byte) :
    (HostAction.writePixel n v).accesses.races (e.accesses j) = true ↔ e.InImage j.fields n := by
  cases j with
  | decode f => rw [accesses_decode (f := f) hj]; simp [AccessSet.races, HostAction.accesses, meets, mem_image, Instr.fields]
  | encode f => rw [accesses_encode (f := f) hj]; simp [AccessSet.races, HostAction.accesses, meets, mem_image, Instr.fields]

/-- A host read of a footprint byte races with an ENCODE (R62, R177). -/
theorem races_readPlanar (a : Nat) :
    (HostAction.readPlanar a).accesses.races (e.accesses j) = true ↔ j.op = 1 ∧ InFootprint j.fields a := by
  cases j with
  | decode f => rw [accesses_decode (f := f) hj]; simp [AccessSet.races, HostAction.accesses, meets, Instr.op]
  | encode f =>
    rw [accesses_encode (f := f) hj]
    simp [AccessSet.races, HostAction.accesses, meets, mem_footprint, Instr.fields, Instr.op]

/-- A host read of an image byte races with a DECODE (R62, R177). -/
theorem races_readPixel (n : Nat) :
    (HostAction.readPixel n).accesses.races (e.accesses j) = true ↔ j.op = 0 ∧ e.InImage j.fields n := by
  cases j with
  | decode f =>
    rw [accesses_decode (f := f) hj]
    simp [AccessSet.races, HostAction.accesses, meets, mem_image, Instr.fields, Instr.op]
  | encode f => rw [accesses_encode (f := f) hj]; simp [AccessSet.races, HostAction.accesses, meets, Instr.op]

end HostAccess

theorem outstanding_of_idle {c : Codec} (h : c.phase = .idle) : c.outstanding = c.pending.map Response.cmd := by
  simp [Codec.outstanding, h]

theorem outstanding_of_busy {c : Codec} (h : c.phase = .busy) :
    c.outstanding = c.cmd :: c.pending.map Response.cmd := by simp [Codec.outstanding, h]

/-- An instance has nothing outstanding where it is `IDLE` and the host has taken every response. -/
theorem outstanding_eq_nil {c : Codec} : c.outstanding = [] ↔ c.phase = .idle ∧ c.pending = [] := by
  cases h : c.phase <;> simp [Codec.outstanding, h]

/-- A command that completes stays outstanding until the host takes its response. -/
theorem outstanding_of_responds {s t : State} {st : Status} (hb : s.codec.phase = .busy)
    (h : Responds s.codec.cmd s t st) (j : Instr) : j ∈ t.codec.outstanding ↔ j ∈ s.codec.outstanding := by
  rw [outstanding_of_idle h.1, outstanding_of_busy hb, h.2]
  simp [or_comm, eq_comm]

theorem racesWith_eq_false {e : Env} {a : AccessSet} {l : List Codec} :
    racesWith e a l = false ↔ ∀ c ∈ l, ∀ j ∈ c.outstanding, a.races (e.accesses j) = false := by
  simp [racesWith]

/-- Nothing races with a list of instances whose admitted outstanding commands it does not race with. -/
theorem racesWith_eq_false_of_admits {e : Env} {a : AccessSet} {l : List Codec}
    (h : ∀ c ∈ l, ∀ j ∈ c.outstanding, e.Admits j.fields → ¬ a.races (e.accesses j) = true) :
    racesWith e a l = false := by
  refine racesWith_eq_false.2 fun c hc j hj => ?_
  by_cases hadm : e.Admits j.fields
  · exact eq_false_of_ne_true (h c hc j hj hadm)
  · rw [accesses_of_not_admits hadm, races_empty_right]

theorem racesWith_eq_true {e : Env} {a : AccessSet} {l : List Codec} :
    racesWith e a l = true ↔ ∃ c ∈ l, ∃ j ∈ c.outstanding, a.races (e.accesses j) = true := by
  simp [racesWith]

/-- Nothing races with instances that have nothing outstanding. -/
theorem racesWith_of_done {e : Env} (a : AccessSet) {l : List Codec} (h : ∀ c ∈ l, c.outstanding = []) :
    racesWith e a l = false :=
  racesWith_eq_false.2 fun c hc j hj => by rw [h c hc] at hj; cases hj

/-- An agent that accesses nothing races with nothing. -/
theorem racesWith_empty {e : Env} {l : List Codec} : racesWith e .empty l = false :=
  racesWith_eq_false.2 fun _ _ _ _ => races_empty_left _

theorem betweenCommands_iff {s : State} : s.betweenCommands = true ↔ ∀ c ∈ s.codecs, c.outstanding = [] := by
  simp [State.betweenCommands]

end Sys2Proof.Machine
end

