-- ==== Sys2Proof/Laws/Step.lean ====
section
/-! SUPPORT. What a step can do, said once: nothing, the completion of a running command, or the host's next action. -/

namespace Sys2Proof.Machine

/-- A command leaves the environment, the other instances and the host alone, and ends in its one response (R26, R27). -/
theorem exec_surroundings {i : Instr} {s t : State} (h : exec i s = .next t) :
    KeepsSurroundings s t ∧ ∃ st, Responds i s t st := by
  rcases exec_next h with ⟨k, -, rfl⟩ | ⟨-, -, p, g, rfl, -⟩
  · exact ⟨keepsSurroundings_raise .., _, responds_raise ..⟩
  · exact ⟨by simp [KeepsSurroundings], .ok, by simp [Responds]⟩

/-- The fields that nothing specifies have their widths (R25, U7). -/
theorem unspecifiedCommand_wf (ws : Widths) (n : Nat) : (unspecifiedCommand ws n).wf ws = true := by
  unfold unspecifiedCommand
  split <;> simp [Instr.wf, Instr.fields, Fields.wf, unspecifiedFields, Nat.mod_lt]

/-- All that a host action can do when it answers a next state. -/
inductive ActsTo (s : State) : HostAction → State → Prop
  | issue {w i} (hd : decode s.env.widths w = .ok i) (hr : racesWith s.env (s.env.accesses i) s.others = false) :
    ActsTo s (.issue w) (s.accept i)
  | nothing (hp : s.codec.pending = []) : ActsTo s .takeResponse s
  | take {r rest} (hp : s.codec.pending = r :: rest) : ActsTo s .takeResponse (s.take r rest)
  | reset {t} (h : s.resetCodec = .next t) : ActsTo s .reset t
  | readPlanar {a} (ha : a < s.env.pbufLen) : ActsTo s (.readPlanar a) { s with seen := s.seen ++ [s.p.read a] }
  | writePlanar {a v} (ha : a < s.env.pbufLen) : ActsTo s (.writePlanar a v) (s.withP (s.p.write a v))
  | readPixel {i} (hi : i < s.env.gridLen) : ActsTo s (.readPixel i) { s with seen := s.seen ++ [s.g.read i] }
  | writePixel {i v} (hi : i < s.env.gridLen) : ActsTo s (.writePixel i v) (s.withG (s.g.write i v))
  | reconfigure {tr} (hb : s.betweenCommands = true) :
    ActsTo s (.reconfigure tr) { s with env := { s.env with transform := tr } }
  | turn : ActsTo s .turn s.turn

/-- A host action acts only where it races with no outstanding command, and then as `ActsTo` says. -/
theorem act_next {s t : State} {a : HostAction} (h : s.act a = .next t) :
    racesWith s.env a.accesses s.codecs = false ∧ ActsTo s a t := by
  unfold State.act at h
  split at h
  · cases h
  rename_i hrace
  refine ⟨by simpa using hrace, ?_⟩
  cases a with
  | issue w =>
    simp only [State.present] at h
    split at h
    · cases h
    · split at h
      · cases h
      · obtain rfl := Host.Outcome.next.inj h
        exact .issue ‹_› (eq_false_of_ne_true ‹_›)
  | takeResponse =>
    simp only at h
    split at h
    · obtain rfl := Host.Outcome.next.inj h
      exact .nothing ‹_›
    · obtain rfl := Host.Outcome.next.inj h
      exact .take ‹_›
  | reset => exact .reset h
  | readPlanar n =>
    simp only at h
    split at h
    · obtain rfl := Host.Outcome.next.inj h
      exact .readPlanar ‹_›
    · cases h
  | writePlanar n v =>
    simp only at h
    split at h
    · obtain rfl := Host.Outcome.next.inj h
      exact .writePlanar ‹_›
    · cases h
  | readPixel n =>
    simp only at h
    split at h
    · obtain rfl := Host.Outcome.next.inj h
      exact .readPixel ‹_›
    · cases h
  | writePixel n v =>
    simp only at h
    split at h
    · obtain rfl := Host.Outcome.next.inj h
      exact .writePixel ‹_›
    · cases h
  | reconfigure tr =>
    simp only at h
    split at h
    · obtain rfl := Host.Outcome.next.inj h
      exact .reconfigure ‹_›
    · cases h
  | turn =>
    obtain rfl := Host.Outcome.next.inj h
    exact .turn

/-- All that a reset can do when it answers a next state: idle at once, or abandon an admitted command and then idle. -/
theorem resetCodec_next {s t : State} (h : s.resetCodec = .next t) :
    (t = s.idleAfterReset ∧ (s.codec.phase = .idle ∨ ¬ s.env.Admits s.codec.cmd.fields)) ∨
    (t = (s.abandon s.codec.cmd).idleAfterReset ∧ s.codec.phase = .busy ∧ s.env.Admits s.codec.cmd.fields ∧
      s.env.imageInStore s.codec.cmd.fields) := by
  unfold State.resetCodec at h
  split at h
  · exact .inl ⟨(Host.Outcome.next.inj h).symm, .inl ‹_›⟩
  · split at h
    · rename_i hk
      exact .inl ⟨(Host.Outcome.next.inj h).symm,
        .inr fun ha => by simp [check_eq_none_iff.2 ha] at hk⟩
    · split at h
      · exact .inr ⟨(Host.Outcome.next.inj h).symm, ‹_›, check_eq_none_iff.1 ‹_›, ‹_›⟩
      · cases h

/-- Where no instance of a list is `BUSY`. -/
theorem splitBusy_eq_none {l : List Codec} : splitBusy l = none ↔ ∀ c ∈ l, c.phase = .idle := by
  induction l with
  | nil => simp [splitBusy]
  | cons c cs ih => cases h : c.phase <;> simp [splitBusy, h, ih]

/-- The parts of a list at its first `BUSY` instance. -/
theorem splitBusy_eq_some {l pre post : List Codec} {c : Codec} :
    splitBusy l = some (pre, c, post) ↔ l = pre ++ c :: post ∧ c.phase = .busy ∧ ∀ d ∈ pre, d.phase = .idle := by
  induction l generalizing pre with
  | nil => simp [splitBusy]
  | cons d ds ih =>
    cases hd : d.phase with
    | busy =>
      simp only [splitBusy, hd, Option.some.injEq, Prod.mk.injEq]
      constructor
      · rintro ⟨rfl, rfl, rfl⟩
        simp [hd]
      · rintro ⟨h, -, hpre⟩
        cases pre with
        | nil => simpa using h
        | cons p ps =>
          obtain ⟨rfl, -⟩ := List.cons.inj h
          have := hpre d (List.mem_cons_self ..)
          rw [hd] at this
          cases this
    | idle =>
      simp only [splitBusy, hd, Option.map_eq_some_iff, Prod.exists, Prod.mk.injEq]
      constructor
      · rintro ⟨ps, e, qs, h, rfl, rfl, rfl⟩
        obtain ⟨h1, h2, h3⟩ := ih.1 h
        refine ⟨by simp [h1], h2, fun x hx => ?_⟩
        rcases List.mem_cons.1 hx with rfl | hx
        · exact hd
        · exact h3 x hx
      · rintro ⟨h, hc, hpre⟩
        cases pre with
        | nil =>
          obtain ⟨rfl, -⟩ := List.cons.inj h
          rw [hd] at hc
          cases hc
        | cons p ps =>
          obtain ⟨rfl, hds⟩ := List.cons.inj h
          exact ⟨ps, c, post, ih.2 ⟨hds, hc, fun x hx => hpre x (List.mem_cons_of_mem _ hx)⟩, rfl, rfl, rfl⟩

/-- All that the completion of another instance's command can do when it answers a next state. -/
theorem completeBeside_next {s t : State} {pre post : List Codec} {c : Codec}
    (h : s.completeBeside pre c post = .next t) :
    ∃ u, exec c.cmd { s with codec := c } = .next u ∧ t = { u with codec := s.codec, others := pre ++ u.codec :: post } := by
  unfold State.completeBeside at h
  split at h
  · exact ⟨_, ‹_›, (Host.Outcome.next.inj h).symm⟩
  · cases h
  · cases h

/-- Where the other instance's command answers a next state, that state with the turn where it was. -/
theorem completeBeside_of_next {s u : State} {pre post : List Codec} {c : Codec}
    (h : exec c.cmd { s with codec := c } = .next u) :
    s.completeBeside pre c post = .next { u with codec := s.codec, others := pre ++ u.codec :: post } := by
  simp only [State.completeBeside, h]

/-- All that can happen while the host does nothing: nothing, as no command runs; or a running command completes, that of
the instance in turn or of the first other instance that is `BUSY`. -/
inductive AwaitsTo (s : State) : State → Prop
  | nothing (hi : ∀ c ∈ s.codecs, c.phase = .idle) : AwaitsTo s s
  | complete {t} (hb : s.codec.phase = .busy) (h : exec s.codec.cmd s = .next t) : AwaitsTo s t
  | beside {pre c post u} (hi : s.codec.phase = .idle) (ho : s.others = pre ++ c :: post)
      (hpre : ∀ d ∈ pre, d.phase = .idle) (hb : c.phase = .busy) (h : exec c.cmd { s with codec := c } = .next u) :
      AwaitsTo s { u with codec := s.codec, others := pre ++ u.codec :: post }

theorem await_next {s t : State} (h : s.await = .next t) : AwaitsTo s t := by
  unfold State.await at h
  split at h
  · exact .complete ‹_› h
  · split at h
    · obtain ⟨ho, hb, hpre⟩ := splitBusy_eq_some.1 ‹_›
      obtain ⟨u, hu, rfl⟩ := completeBeside_next h
      exact .beside ‹_› ho hpre hb hu
    · obtain rfl := Host.Outcome.next.inj h
      refine .nothing fun c hc => ?_
      rcases List.mem_cons.1 hc with rfl | hc
      · assumption
      · exact splitBusy_eq_none.1 ‹_› c hc

/-- All that a step can do when it answers a next state: what happens while the host does nothing, or the host's next
action. -/
theorem step_next {s t : State} (h : step s = .next t) :
    AwaitsTo s t ∨
    (∃ a rest, s.host = a :: rest ∧ s.waits a = false ∧ ({ s with host := rest } : State).act a = .next t) := by
  unfold step State.advance at h
  split at h
  · exact .inl (await_next h)
  · split at h
    · exact .inl (await_next h)
    · exact .inr ⟨_, _, ‹_›, eq_false_of_ne_true ‹_›, h⟩

/-- A busy instance with nothing more for the host to do runs its command. -/
theorem step_of_busy {s : State} (hb : s.codec.phase = .busy) (hh : s.host = []) : step s = exec s.codec.cmd s := by
  simp [step, State.advance, hh, State.await, hb, State.complete]

/-- An abandoned command changes no byte of `P` but its footprint, and none if it is a DECODE. -/
theorem abandon_p_cells (s : State) (i : Instr) : ∃ cells : List Host.Cell, (s.abandon i).p = s.p.writeAll cells ∧
    ∀ c ∈ cells, InFootprint i.fields c.1 := by
  cases i with
  | decode f => exact ⟨[], by simp [State.abandon], by simp⟩
  | encode f =>
    refine ⟨_, by simp only [State.abandon, State.withP_p]; rfl, fun c hc => ?_⟩
    obtain ⟨d, -, rfl⟩ := List.mem_map.1 hc
    exact planarAddr_inFootprint f d.1 d.2

/-- An abandoned command changes no byte of `G` but its image, and none if it is an ENCODE. -/
theorem abandon_g_cells (s : State) (i : Instr) : ∃ cells : List Host.Cell, (s.abandon i).g = s.g.writeAll cells ∧
    ∀ c ∈ cells, s.env.InImage i.fields c.1 := by
  cases i with
  | encode f => exact ⟨[], by simp [State.abandon], by simp⟩
  | decode f =>
    refine ⟨_, by simp only [State.abandon, State.withG_g]; rfl, fun c hc => ?_⟩
    obtain ⟨d, hd, rfl⟩ := List.mem_map.1 hc
    exact mem_image.1 hd

end Sys2Proof.Machine
end

