-- ==== Sys2Proof/Tests/Slice0.lean ====
section
/-! SUPPORT. My own tests. First the checks and the decoder on single terms and words, then single steps whose results are the
vectors of 95_test_vectors.md, then for each statement with hypotheses a state and operands that meet them. -/

set_option maxRecDepth 20000

open Sys2Proof Sys2Proof.Machine

namespace Sys2Proof.Tests

/-! ### Helpers -/

/-- Cells of consecutive addresses. -/
def cellsFrom (base : Nat) (bytes : List Nat) : List Host.Cell :=
  bytes.zipIdx.map fun c => (base + c.2, BitVec.ofNat 8 c.1)

/-- A memory with these bytes from an address on, and nothing else. -/
def bytesAt (base : Nat) (bytes : List Nat) : Memory := Memory.writeAll [] (cellsFrom base bytes)

/-- The dense tile of V-D3. -/
def denseTile : List Nat := (List.range 64).map fun k => (37 * k + 11) % 256

/-- The dense grid of V-E3. -/
def denseGrid : List Nat :=
  (List.range 64).map fun k => ((k % 8) * (k % 8) + 3 * (k / 8) * (k / 8) + 5 * (k % 8) * (k / 8) + 7) % 256

/-- The default environment of the vectors with an 8x8 grid. -/
def env8 (pbufLen : Nat) : Env := ⟨tableWidths, pbufLen, 8, 8, .identity, .rowMajor⟩

/-- One idle instance, the environment of the vectors, given memories. -/
def machine (e : Env) (p g : Memory) : State := { State.reset with env := e, p := p, g := g }

/-- The same machine with a command captured. -/
def busyWith (i : Instr) (s : State) : State := s.accept i

/-- The same machine with host actions to do. -/
def doing (host : List HostAction) (s : State) : State := { s with host := host }

/-- The statuses of the responses that the host has not taken. -/
def statuses (s : State) : List Status := s.codec.pending.map Response.status

/-- A check on a next state; false on a stop. -/
def nextAnd (o : Host.Outcome State Fault Refusal) (check : State → Bool) : Bool :=
  match o with
  | .next t => check t
  | _ => false

/-- The step is refused for this reason. -/
def refusedWith (o : Host.Outcome State Fault Refusal) (r : Refusal) : Bool :=
  match o with
  | .refused r' => decide (r' = r)
  | _ => false

/-- `tile_addr` with the tile's dimensions, origin (0, 0). -/
def at0 (a : Nat) : Fields := ⟨8, 8, a, 0, 0⟩

/-! ### WellFormed refuses ill-formed terms -/

theorem test_wf_refuses_wide_tileAddr : Instr.wf tableWidths (.decode ⟨8, 8, 2 ^ 32, 0, 0⟩) = false := by decide

theorem test_wf_refuses_wide_baseX : Instr.wf tableWidths (.encode ⟨8, 8, 0, 2 ^ 16, 0⟩) = false := by decide

theorem test_wf_refuses_wide_baseY : Instr.wf tableWidths (.encode ⟨8, 8, 0, 0, 2 ^ 16⟩) = false := by decide

theorem test_wf_admits_largest : Instr.wf tableWidths (.decode ⟨255, 255, 2 ^ 32 - 1, 2 ^ 16 - 1, 2 ^ 16 - 1⟩) = true := by
  decide

theorem test_illegal_width : Fields.legal ⟨7, 8, 0, 0, 0⟩ = false := by decide

theorem test_illegal_height : Fields.legal ⟨8, 16, 0, 0, 0⟩ = false := by decide

/-! ### Words written out from R72 and the tables of 30_encoding.md and 95_test_vectors.md -/

/-- base_y, base_x, tile_addr, height, width, op, most significant bit first. -/
theorem test_decode_word_of_DECODE :
    decode tableWidths 0b1000000000000010_1000000000000011_00000000000000000000000000000010_00001000_00001000_0 =
      .ok (.decode ⟨8, 8, 2, 0x8003, 0x8002⟩) := by decide

theorem test_decode_word_of_ENCODE :
    decode tableWidths 0b0000000000001000_0000000000000000_00000000000000000000000001000000_00001000_00001000_1 =
      .ok (.encode ⟨8, 8, 64, 0, 8⟩) := by decide

theorem test_decode_word_Program3 : decode tableWidths 0x000000002000000481010 = .ok (.decode ⟨8, 8, 36, 1, 0⟩) := by decide

theorem test_decode_word_illegal : decode tableWidths 0x000000000000000c61008 = .ok (.decode ⟨4, 8, 99, 0, 0⟩) := by decide

theorem test_decode_refuses_wide : decode tableWidths (2 ^ 81) = .error .wordTooWide := by decide

theorem test_encode_word : encode tableWidths (.encode ⟨8, 8, 37, 0, 0⟩) = 0x0000000000000004a1011 := by decide

theorem test_table_word_short : decodeTableWord 8 0x01 = some (.encode ⟨0, 0, 0, 0, 0⟩) := by decide

/-- R81 and log 26: an operand that does not fit its field makes no line. -/
theorem test_line_refuses : operandsOfLine tableWidths [0, 0, 0, 256, 8] = none ∧
    operandsOfLine tableWidths [2 ^ 32, 0, 0] = none ∧ operandsOfLine tableWidths [0, 2 ^ 16, 0] = none := by decide

/-! ### DECODE, one step each -/

/-- V-D3. -/
theorem test_decode_dense :
    nextAnd (step (busyWith (.decode (at0 0)) (machine (env8 64) (bytesAt 0 denseTile) []))) (fun t =>
      decide (t.p = bytesAt 0 denseTile ∧ statuses t = [.ok] ∧ t.g = bytesAt 0
        [0x78, 0x64, 0xD2, 0x66, 0x55, 0x00, 0x55, 0x55, 0x1C, 0xDB, 0x96, 0x33, 0xAA, 0x55, 0xAA, 0x55,
         0xC7, 0x26, 0xB4, 0x99, 0x55, 0xFF, 0x55, 0x55, 0xF1, 0xC9, 0xA5, 0xCC, 0xFF, 0xAA, 0xAA, 0x55,
         0x3C, 0xB2, 0x69, 0x33, 0xAA, 0x00, 0x55, 0x55, 0x8E, 0x6D, 0x4B, 0x99, 0x55, 0x55, 0xAA, 0x55,
         0xE3, 0x93, 0x5A, 0xCC, 0xAA, 0xFF, 0x55, 0x55, 0x38, 0x24, 0x96, 0x33, 0x00, 0xAA, 0xAA, 0x55])) = true := by
  decide +kernel

/-- V-D6 (first and last row), over an unaligned tile (V-D4). -/
theorem test_decode_mirrored :
    nextAnd (step (busyWith (.decode (at0 3)) (machine { env8 67 with transform := .mirrored } (bytesAt 3 denseTile) [])))
      (fun t => decide ((List.range 8).map t.g.read = [0x55, 0x55, 0x00, 0x55, 0x66, 0xD2, 0x64, 0x78] ∧
        (List.range 8).map (fun x => t.g.read (56 + x)) = [0x55, 0xAA, 0xAA, 0x00, 0x33, 0x96, 0x24, 0x38])) = true := by
  decide +kernel

/-! ### ENCODE, one step each -/

/-- V-E3, over an old buffer that must not show. -/
theorem test_encode_dense :
    nextAnd (step (busyWith (.encode (at0 0)) (machine (env8 64) (bytesAt 0 (List.replicate 64 0x55)) (bytesAt 0 denseGrid))))
      (fun t => decide (t.g = bytesAt 0 denseGrid ∧ statuses t = [.ok] ∧ t.p = bytesAt 0
        [0xAA, 0xAA, 0x00, 0x99, 0xAA, 0xFF, 0x00, 0xCC, 0xAA, 0xAA, 0x00, 0x99, 0xAA, 0xFF, 0x00, 0xCC,
         0x88, 0x63, 0x0F, 0xAF, 0x44, 0x7D, 0x2D, 0x19, 0xDD, 0x50, 0x5A, 0x66, 0x11, 0x0A, 0x78, 0xD0,
         0x19, 0x07, 0x65, 0x1C, 0xD6, 0x32, 0x51, 0xCB, 0x9F, 0xB5, 0x81, 0x55, 0xF9, 0xAD, 0xCA, 0x6C,
         0x00, 0x00, 0x03, 0x00, 0x0E, 0x01, 0x38, 0x07, 0x73, 0x0F, 0xCC, 0x3C, 0x9B, 0x78, 0x25, 0xE3])) = true := by
  decide +kernel

/-- V-E4 at the edges of the footprint. -/
theorem test_encode_neighbours :
    nextAnd (step (busyWith (.encode (at0 64))
      (machine (env8 192) [(63, 0xC3), (64, 0xC3), (100, 0xC3), (127, 0xC3), (128, 0xC3)] [])))
      (fun t => decide (t.p = [(63, 0xC3), (128, 0xC3)])) = true := by
  decide +kernel

/-- V-E5: the access sequence before column 3, first row of planes 0 and 1 and the last byte. -/
theorem test_encode_before_column_three :
    (let m := (AccessRun.packColumns (env8 64) (at0 0) [0, 1, 2]
      (machine (env8 64) (bytesAt 0 (List.replicate 64 0x55)) (bytesAt 0 denseGrid)).accessRun).p
    decide ([0, 2, 4, 63].map m.read = [0xB5, 0x15, 0xB5, 0xF5])) = true := by
  decide +kernel

/-! ### Faults: the table of section 4, V-F1 to V-F13, and the same with ENCODE -/

theorem test_faults : ([
      (at0 0, env8 64), (at0 1, env8 64), (⟨8, 8, 0, 1, 0⟩, env8 64), (⟨8, 8, 0, 0, 1⟩, env8 64),
      (⟨7, 8, 0, 0, 0⟩, env8 64), (⟨8, 0, 0, 0, 0⟩, env8 64), (⟨9, 8, 1, 0, 0⟩, env8 64), (at0 0, env8 63),
      (at0 0, env8 0), (at0 0xFFFFFFC0, env8 (2 ^ 32)), (at0 0xFFFFFFC1, env8 (2 ^ 32)),
      (⟨8, 8, 0, 8, 0⟩, { env8 64 with gridW := 16, transform := .mirrored }),
      (⟨8, 8, 0, 9, 0⟩, { env8 64 with gridW := 16, transform := .mirrored })].map
        fun (c : Fields × Env) => (c.2.check c.1).map fun k => k.status.code.toNat) =
    [none, some 1, some 1, some 1, some 2, some 2, some 2, some 1, some 1, none, some 1, none, some 1] := by decide

/-- V-F2 as a step: the status, and nothing written. -/
theorem test_decode_fault :
    nextAnd (step (busyWith (.decode (at0 1)) (machine (env8 64) (bytesAt 0 denseTile) (bytesAt 0 denseGrid)))) (fun t =>
      decide (statuses t = [.outOfRange] ∧ t.codec.phase = .idle ∧ t.p = bytesAt 0 denseTile ∧
        t.g = bytesAt 0 denseGrid)) = true := by decide +kernel

/-- V-F7 with ENCODE as a step. -/
theorem test_encode_fault :
    nextAnd (step (busyWith (.encode ⟨9, 8, 1, 0, 0⟩) (machine (env8 64) (bytesAt 0 denseTile) []))) (fun t =>
      decide (statuses t = [.invalidDimensions] ∧ t.p = bytesAt 0 denseTile)) = true := by decide +kernel

/-! ### The machine and its host -/

/-- A word placed where the step takes its next command runs. -/
theorem test_step_runs_placed_word :
    nextAnd (step (State.reset.withFetchWord 88 0x1011)) (fun t => decide (statuses t = [.ok])) = true := by
  decide +kernel

/-- The host's write of Program 2. -/
theorem test_host_write :
    nextAnd (step (doing [.writePixel 53 0xA3] (machine (env8 64) [] [(53, 0x22)]))) (fun t =>
      decide (t.g = [(53, 0xA3)] ∧ t.host = [])) = true := by decide

/-- The host's switch of `advance` in Program 4, refused while a command runs. -/
theorem test_reconfigure_refused_while_busy :
    refusedWith (step (busyWith (.decode (at0 0)) (doing [.reconfigure .mirrored] (machine (env8 64) [] []))))
      .environmentMoved = true := by decide +kernel

/-- A command of another instance completes while the instance in turn is idle (R27, R180). -/
theorem test_other_instance_completes :
    nextAnd (step { machine (env8 64) [] [] with others := [{ Codec.reset with phase := .busy }] }) (fun t =>
      decide (t.others.map (fun c => (c.phase, c.pending.map Response.status)) = [(.idle, [.invalidDimensions])] ∧
        t.codec = Codec.reset)) = true := by decide

/-- A response that the host has not taken orders nothing (R178): another instance's command on the same tile is refused. -/
theorem test_untaken_response_races :
    refusedWith (step (doing [.issue 0x1011] { machine (env8 64) [] [] with
      others := [{ Codec.reset with pending := [⟨.ok, .encode (at0 0)⟩] }] })) .dataRace = true := by decide +kernel

/-- A reset abandons a command without a response (R32). -/
theorem test_reset_while_busy :
    nextAnd (step (busyWith (.decode ⟨7, 8, 0, 0, 0⟩) (doing [.reset] (machine (env8 64) [(5, 9)] [])))) (fun t =>
      decide (t.codec.pending = [] ∧ t.codec.phase = .idle ∧ t.p = [(5, 9)])) = true := by decide

/-! ### The memory -/

theorem test_memory_canonical :
    Memory.write (Memory.write (Memory.write [] 9 1) 3 2) 9 0 = [(3, 2)] ∧ Memory.wf [(9, 1), (3, 2)] = false ∧
      Memory.wf [(3, 0)] = false := by decide

theorem test_reset_memory_canonical : State.reset.p.wf = true ∧ State.reset.g.wf = true := by decide

end Sys2Proof.Tests
end

