-- ==== Sys2Proof/Tests/Witnesses.lean ====
section
/-! SUPPORT. For each statement that has hypotheses, a state and operands that meet all of them together, each clause at the
edge of its range. `witness_<Name>` is for `Obligations.<Name>`. -/

set_option maxRecDepth 20000

open Sys2Proof Sys2Proof.Machine

namespace Sys2Proof.Tests

/-! ### The machines -/

/-- The dense tile and the dense grid; the tile at address 0 fills the buffer exactly. -/
def tileMachine : State := machine (env8 64) (bytesAt 0 denseTile) (bytesAt 0 denseGrid)

/-- The same tile at the unaligned address 3, the last one that fits, under another old `G`. -/
def shiftedMachine : State := machine (env8 67) (bytesAt 3 denseTile) (bytesAt 0 denseGrid)

/-- A 16x8 grid and room for two tiles. -/
def wideMachine : State := machine { env8 128 with gridW := 16 } (bytesAt 0 denseTile) []

/-- An instance that runs a command. -/
def busyCodec (i : Instr) : Codec := { Codec.reset with phase := .busy, cmd := i }

/-- The transform that puts tile pixel (1, 0) on pixel (0, 0). -/
def collapsing : Transform := .table [((0, 0, 1, 0), (0, 0))]

/-- The transform that puts tile pixel (0, 0) left of the grid. -/
def leaving : Transform := .table [((0, 0, 0, 0), (-1, 0))]

theorem tile_admits : tileMachine.env.Admits (at0 0) := by unfold Env.Admits; decide

theorem shifted_admits : shiftedMachine.env.Admits (at0 3) := by unfold Env.Admits; decide

theorem wide_admits : wideMachine.env.Admits ⟨8, 8, 64, 8, 0⟩ := by unfold Env.Admits; decide

theorem tile_contracts (f : Fields) : tileMachine.env.Contracts f := ⟨rowMajor_contract rfl, identity_contract rfl f⟩

theorem shifted_contracts (f : Fields) : shiftedMachine.env.Contracts f :=
  ⟨rowMajor_contract rfl, identity_contract rfl f⟩

theorem wide_contracts (f : Fields) : wideMachine.env.Contracts f := ⟨rowMajor_contract rfl, identity_contract rfl f⟩

theorem tile_wf : tileMachine.p.wf = true ∧ tileMachine.g.wf = true := by decide +kernel

theorem shifted_wf : shiftedMachine.p.wf = true ∧ shiftedMachine.g.wf = true := by decide +kernel

theorem tile_decodes : ∃ t, exec (.decode (at0 0)) tileMachine = .next t :=
  ⟨_, execDecode_of_admits tile_admits (imageInStore_of_contract tile_admits (rowMajor_contract rfl))⟩

theorem tile_encodes : ∃ t, exec (.encode (at0 0)) tileMachine = .next t :=
  ⟨_, execEncode_of_admits tile_admits (imageInStore_of_contract tile_admits (rowMajor_contract rfl))⟩

theorem shifted_decodes : ∃ t, exec (.decode (at0 3)) shiftedMachine = .next t :=
  ⟨_, execDecode_of_admits shifted_admits (imageInStore_of_contract shifted_admits (rowMajor_contract rfl))⟩

theorem shifted_encodes : ∃ t, exec (.encode (at0 3)) shiftedMachine = .next t :=
  ⟨_, execEncode_of_admits shifted_admits (imageInStore_of_contract shifted_admits (rowMajor_contract rfl))⟩

/-- Bytes and indices on both sides of the edges of the footprint and of the image. -/
theorem edges : InFootprint (at0 3) 3 ∧ InFootprint (at0 3) 66 ∧ ¬ InFootprint (at0 3) 2 ∧ ¬ InFootprint (at0 3) 67 ∧
    wideMachine.env.InImage ⟨8, 8, 64, 8, 0⟩ 8 ∧ ¬ wideMachine.env.InImage ⟨8, 8, 64, 8, 0⟩ 7 ∧
    wideMachine.env.InImage ⟨8, 8, 64, 8, 0⟩ 127 ∧ ¬ wideMachine.env.InImage ⟨8, 8, 64, 8, 0⟩ 128 := by
  unfold InFootprint Env.InImage
  decide

/-! ### Command words -/

theorem witness_EncodeThenDecodeGivesTheCommand :
    Instr.wf tableWidths (.encode ⟨255, 0, 2 ^ 32 - 1, 2 ^ 16 - 1, 2 ^ 16 - 1⟩) = true ∧
    Instr.wf ⟨1, 1⟩ (.decode ⟨8, 8, 1, 1, 0⟩) = true := by decide

theorem witness_EveryWordIsOneCommand : 0 < 2 ^ cmdBits tableWidths ∧ 2 ^ 81 - 1 < 2 ^ cmdBits tableWidths ∧
    0x01010 &&& 0x1 = 0x0 ∧ 0x01011 &&& 0x1 = 0x1 := by decide

/-! ### The format -/

theorem witness_OmittedDimensionsAreEight : Fields.wf tableWidths ⟨8, 8, 2 ^ 32 - 1, 2 ^ 16 - 1, 2 ^ 16 - 1⟩ = true := by
  decide

theorem witness_WideNumberIsNoCommand : 2 ^ cmdBits tableWidths ≤ 2 ^ 81 ∧
    2 ^ cmdBits (doing [.issue (2 ^ 81)] State.reset).env.widths ≤ 2 ^ 81 ∧
    (doing [.issue (2 ^ 81)] State.reset).codec.phase = .idle ∧
    (doing [.issue (2 ^ 81)] State.reset).host = .issue (2 ^ 81) :: [] := by decide

theorem witness_TileIs64ContiguousBytes :
    planarAddr (at0 3) 0 0 = planarAddr (at0 3) 0 0 ∧ planarAddr (at0 3) 7 7 = 3 + 63 ∧ (0 < 64 ∧ 63 < 64) := by decide

/-! ### DECODE -/

theorem witness_DecodeUnpacksTheTile :
    tileMachine.env.Admits (at0 0) ∧ tileMachine.env.Contracts (at0 0) ∧ tileMachine.g.wf = true ∧
      ¬ tileMachine.env.InImage (at0 0) 64 :=
  ⟨tile_admits, tile_contracts _, tile_wf.2, by unfold Env.InImage; decide⟩

theorem witness_DecodeFrame : (∃ t, exec (.decode (at0 0)) tileMachine = .next t) ∧
    (∃ t, exec (.decode (at0 1)) tileMachine = .next t) ∧ ¬ tileMachine.env.InImage (at0 0) 64 :=
  ⟨tile_decodes, ⟨_, exec_of_check (k := .outOfRange) (by decide)⟩, by unfold Env.InImage; decide⟩

theorem witness_DecodeDependsOnFootprintOnly :
    shiftedMachine.env.transform = tileMachine.env.transform ∧ shiftedMachine.env.accessor = tileMachine.env.accessor ∧
    shiftedMachine.env.gridW = tileMachine.env.gridW ∧ (at0 3).baseX = (at0 0).baseX ∧ (at0 3).baseY = (at0 0).baseY ∧
    tileMachine.env.Admits (at0 0) ∧ shiftedMachine.env.Admits (at0 3) ∧ tileMachine.env.Contracts (at0 0) ∧
    shiftedMachine.env.Contracts (at0 3) ∧ tileMachine.g.wf = true ∧ shiftedMachine.g.wf = true ∧
    (∀ k, k < 64 → shiftedMachine.p.read (3 + k) = tileMachine.p.read (0 + k)) ∧
    (∃ t, exec (.decode (at0 0)) tileMachine = .next t) ∧ ∃ t, exec (.decode (at0 3)) shiftedMachine = .next t :=
  ⟨rfl, rfl, rfl, rfl, rfl, tile_admits, shifted_admits, tile_contracts _, shifted_contracts _, tile_wf.2, shifted_wf.2,
    by decide +kernel, tile_decodes, shifted_decodes⟩

/-- The tile of S4. -/
def topBits : Memory :=
  [(0x00, 0x80), (0x01, 0x80), (0x10, 0x80), (0x11, 0x80), (0x20, 0x80), (0x21, 0x80), (0x30, 0x80), (0x31, 0x80)]

theorem witness_TopBitsDecodeToColumnZero :
    (machine (env8 64) topBits []).env.Admits (at0 0) ∧ (machine (env8 64) topBits []).env.Contracts (at0 0) ∧
    (machine (env8 64) topBits []).g.wf = true ∧ (∀ b : Lane, topBits.read (0 + planeOffset b) = 0x80) ∧
    (∀ a, InFootprint (at0 0) a → (∀ b : Lane, a ≠ 0 + planeOffset b) → topBits.read a = 0) := by
  refine ⟨tile_admits, tile_contracts _, rfl, by decide, fun a ha => ?_⟩
  have h : ∀ a, a < 64 → (∀ b : Lane, a ≠ 0 + planeOffset b) → topBits.read a = 0 := by decide
  exact h a (by have := ha.2; simpa [at0] using this)

/-- Two pixels share an index; pixel (2, 0) alone targets its own. -/
theorem witness_DecodeWithSharedPixelsCompletes :
    { env8 64 with transform := collapsing }.Admits (at0 0) ∧ { env8 64 with transform := collapsing }.AddressContract ∧
    tileMachine.g.wf = true ∧
    { env8 64 with transform := collapsing }.pix (at0 0) 1 0 = { env8 64 with transform := collapsing }.pix (at0 0) 0 0 ∧
    (∀ x' y' : Lane, { env8 64 with transform := collapsing }.pix (at0 0) x' y' =
      { env8 64 with transform := collapsing }.pix (at0 0) 2 0 → x' = 2 ∧ y' = 0) ∧
    ¬ { env8 64 with transform := collapsing }.InImage (at0 0) 1 :=
  ⟨by unfold Env.Admits; decide, rowMajor_contract rfl, tile_wf.2, by decide, by decide,
    by unfold Env.InImage; decide⟩

/-! ### ENCODE -/

theorem witness_EncodePacksTheTile :
    shiftedMachine.env.Admits (at0 3) ∧ shiftedMachine.env.AddressContract ∧ shiftedMachine.p.wf = true ∧
      ¬ InFootprint (at0 3) 2 ∧ ¬ InFootprint (at0 3) 67 :=
  ⟨shifted_admits, (shifted_contracts (at0 3)).1, shifted_wf.1, edges.2.2.1, edges.2.2.2.1⟩

theorem witness_EncodeFrame : (∃ t, exec (.encode (at0 3)) shiftedMachine = .next t) ∧
    (∃ t, exec (.encode (at0 4)) shiftedMachine = .next t) ∧ ¬ InFootprint (at0 3) 2 :=
  ⟨shifted_encodes, ⟨_, exec_of_check (k := .outOfRange) (by decide)⟩, edges.2.2.1⟩

theorem witness_EncodeDependsOnImageOnly :
    shiftedMachine.env.transform = tileMachine.env.transform ∧ shiftedMachine.env.accessor = tileMachine.env.accessor ∧
    shiftedMachine.env.gridW = tileMachine.env.gridW ∧ (at0 3).baseX = (at0 0).baseX ∧ (at0 3).baseY = (at0 0).baseY ∧
    tileMachine.env.Admits (at0 0) ∧ shiftedMachine.env.Admits (at0 3) ∧ tileMachine.p.wf = true ∧
    shiftedMachine.p.wf = true ∧
    (∀ x y : Lane, shiftedMachine.g.read (tileMachine.env.pix (at0 0) x y) =
      tileMachine.g.read (tileMachine.env.pix (at0 0) x y)) ∧
    (∃ t, exec (.encode (at0 0)) tileMachine = .next t) ∧ (∃ t, exec (.encode (at0 3)) shiftedMachine = .next t) ∧
    0 < 64 ∧ 63 < 64 :=
  ⟨rfl, rfl, rfl, rfl, rfl, tile_admits, shifted_admits, tile_wf.1, shifted_wf.1, fun _ _ => rfl, tile_encodes,
    shifted_encodes, by decide, by decide⟩

/-! ### Both directions -/

/-- The machine with the last bit of the tile's last byte flipped. -/
def flippedTile : State := { tileMachine with
  p := tileMachine.p.write (planarAddr (at0 0) 7 7) (tileMachine.p.read (planarAddr (at0 0) 7 7) ^^^ ((1 : Byte) <<< 7)) }

/-- The machine with the top bit of the first pixel of the last row flipped. -/
def flippedPixel : State := { tileMachine with
  g := tileMachine.g.write (tileMachine.env.pix (at0 0) 0 7)
    (tileMachine.g.read (tileMachine.env.pix (at0 0) 0 7) ^^^ ((1 : Byte) <<< 7)) }

theorem witness_OneBitFlipMovesOneBit :
    tileMachine.env.Admits (at0 0) ∧ tileMachine.env.Contracts (at0 0) ∧ tileMachine.p.wf = true ∧
    tileMachine.g.wf = true ∧ (∃ t, exec (.decode (at0 0)) tileMachine = .next t) ∧
    (∃ t', exec (.decode (at0 0)) flippedTile = .next t') ∧ (∃ t, exec (.encode (at0 0)) tileMachine = .next t) ∧
    ∃ t', exec (.encode (at0 0)) flippedPixel = .next t' :=
  ⟨tile_admits, tile_contracts _, tile_wf.1, tile_wf.2, tile_decodes,
    ⟨_, execDecode_of_admits (s := flippedTile) tile_admits (imageInStore_of_contract tile_admits (rowMajor_contract rfl))⟩,
    tile_encodes,
    ⟨_, execEncode_of_admits (s := flippedPixel) tile_admits (imageInStore_of_contract tile_admits (rowMajor_contract rfl))⟩⟩

/-- The second command runs on the state the first leaves, with `P` cleared. -/
theorem witness_EncodeOfDecodeRestoresTheBytes :
    ∃ t u : State, u.env.transform = tileMachine.env.transform ∧ u.env.accessor = tileMachine.env.accessor ∧
      u.env.gridW = tileMachine.env.gridW ∧ tileMachine.env.Admits (at0 0) ∧ tileMachine.env.Contracts (at0 0) ∧
      tileMachine.g.wf = true ∧ exec (.decode (at0 0)) tileMachine = .next t ∧ u.env.Admits (at0 0) ∧
      u.env.AddressContract ∧ u.p.wf = true ∧ u.g = t.g := by
  obtain ⟨t, ht⟩ := tile_decodes
  exact ⟨t, { tileMachine with p := [], g := t.g }, rfl, rfl, rfl, tile_admits, tile_contracts _, tile_wf.2, ht,
    tile_admits, (tile_contracts (at0 0)).1, rfl, rfl⟩

/-- The second command runs on the state the first leaves, with `G` cleared. -/
theorem witness_DecodeOfEncodeRestoresThePixels :
    ∃ t u : State, tileMachine.env.Admits (at0 0) ∧ tileMachine.env.AddressContract ∧ tileMachine.p.wf = true ∧
      exec (.encode (at0 0)) tileMachine = .next t ∧ u.env.Admits (at0 0) ∧ u.env.Contracts (at0 0) ∧ u.g.wf = true ∧
      ∀ a, InFootprint (at0 0) a → u.p.read a = t.p.read a := by
  obtain ⟨t, ht⟩ := tile_encodes
  exact ⟨t, { tileMachine with p := t.p, g := [] }, tile_admits, (tile_contracts (at0 0)).1, tile_wf.1, ht,
    tile_admits, tile_contracts _, rfl, fun _ _ => rfl⟩

theorem witness_AdmittedCommandCompletes :
    tileMachine.env.Admits (Instr.decode (at0 0)).fields ∧ shiftedMachine.env.Admits (Instr.encode (at0 3)).fields ∧
    tileMachine.env.AddressContract ∧ shiftedMachine.env.AddressContract :=
  ⟨tile_admits, shifted_admits, rowMajor_contract rfl, rowMajor_contract rfl⟩

/-! ### Faults -/

/-- A next state whose response is the fault's. -/
theorem raises {i : Instr} {s : State} {k : CodecFault} (h : s.env.check i.fields = some k) :
    ∃ t, exec i s = .next t ∧ t.codec.pending = s.codec.pending ++ [⟨k.status, i⟩] := ⟨_, exec_of_check h, rfl⟩

theorem witness_WrongDimensionsRaise : (7 : Byte) ≠ 8 ∧ (9 : Byte) ≠ 8 ∧
    (∃ t, exec (.decode ⟨7, 8, 0, 0, 0⟩) tileMachine = .next t ∧
      t.codec.pending = tileMachine.codec.pending ++ [⟨.invalidDimensions, .decode ⟨7, 8, 0, 0, 0⟩⟩]) ∧
    ∃ t, exec (.encode ⟨8, 9, 0, 0, 0⟩) tileMachine = .next t ∧
      t.codec.pending = tileMachine.codec.pending ++ [⟨.invalidDimensions, .encode ⟨8, 9, 0, 0, 0⟩⟩] :=
  ⟨by decide, by decide, raises (k := .invalidDimensions) (by decide), raises (k := .invalidDimensions) (by decide)⟩

/-- One past the buffer; one past the grid in `x` and in `y`; one before it. -/
theorem witness_OutOfRangeRaises : (at0 1).width = 8 ∧ (at0 1).height = 8 ∧ (at0 1).tileAddr + 64 > tileMachine.env.pbufLen ∧
    ¬ ((tileMachine.env.coord ⟨8, 8, 0, 1, 0⟩ 7 0).1 < tileMachine.env.gridW) ∧
    ¬ ((tileMachine.env.coord ⟨8, 8, 0, 0, 1⟩ 0 7).2 < tileMachine.env.gridH) ∧
    ¬ (0 ≤ (Env.coord { env8 64 with transform := leaving } (at0 0) 0 0).1) ∧
    ∃ t, exec (.decode (at0 1)) tileMachine = .next t ∧
      t.codec.pending = tileMachine.codec.pending ++ [⟨.outOfRange, .decode (at0 1)⟩] :=
  ⟨rfl, rfl, by decide, by decide, by decide, by decide, raises (k := .outOfRange) (by decide)⟩

/-- All four branches: bad dimensions with a bad range, planar range, grid range, none. -/
theorem witness_FirstFailingCheckDecides : (⟨9, 8, 1, 0, 0⟩ : Fields).legal = false ∧
    ((at0 1).legal = true ∧ (at0 1).tileAddr + 64 > tileMachine.env.pbufLen) ∧
    ((⟨8, 8, 0, 1, 0⟩ : Fields).legal = true ∧ (⟨8, 8, 0, 1, 0⟩ : Fields).tileAddr + 64 ≤ tileMachine.env.pbufLen ∧
      tileMachine.env.gridOk ⟨8, 8, 0, 1, 0⟩ = false) ∧
    (at0 0).legal = true ∧ (at0 0).tileAddr + 64 ≤ tileMachine.env.pbufLen ∧ tileMachine.env.gridOk (at0 0) = true ∧
    tileMachine.env.Contracts (at0 0) :=
  ⟨by decide, by decide, by decide, by decide, by decide, by decide, tile_contracts _⟩

theorem witness_FaultChangesNoByte : ¬ tileMachine.env.Admits (Instr.encode (at0 1)).fields := by
  unfold Env.Admits; decide

theorem witness_FaultIsNotSticky : ¬ tileMachine.env.Admits (Instr.encode (at0 1)).fields ∧
    tileMachine.env.Contracts (Instr.decode (at0 0)).fields ∧ (∃ t, exec (.encode (at0 1)) tileMachine = .next t) ∧
    ∃ u, exec (.decode (at0 0)) tileMachine = .next u :=
  ⟨witness_FaultChangesNoByte, tile_contracts _, ⟨_, exec_of_check (k := .outOfRange) (by decide)⟩, tile_decodes⟩

theorem witness_FootprintNeverWraps : tileMachine.env.wf ∧ (env8 (2 ^ 32)).wf ∧ (at0 1).width = 8 ∧ (at0 1).height = 8 ∧
    (at0 1).tileAddr + 64 > tileMachine.env.pbufLen ∧
    (at0 0xFFFFFFC1).tileAddr + 64 > 2 ^ (env8 (2 ^ 32)).widths.addrW := by
  unfold Env.wf; decide

/-- The accessor puts pixel (0, 0) one past the store. -/
theorem witness_BrokenAccessorIsRefused : { env8 64 with accessor := .table [((0, 0), 64)] }.Admits (at0 0) ∧
    ∃ x y : Lane, { env8 64 with accessor := .table [((0, 0), 64)] }.gridLen ≤
      { env8 64 with accessor := .table [((0, 0), 64)] }.pix (at0 0) x y := by
  unfold Env.Admits; decide

/-! ### The access sequences -/

theorem witness_DecodeAccessSequenceAgrees :
    tileMachine.env.Admits (at0 0) ∧ tileMachine.env.Contracts (at0 0) ∧ tileMachine.g.wf = true :=
  ⟨tile_admits, tile_contracts _, tile_wf.2⟩

theorem witness_EncodeAccessSequenceAgrees :
    tileMachine.env.Admits (at0 0) ∧ tileMachine.env.AddressContract ∧ tileMachine.p.wf = true :=
  ⟨tile_admits, rowMajor_contract rfl, tile_wf.1⟩

/-- No column and all columns; the byte itself at another bit, and another byte. -/
theorem witness_EncodeIntermediateStates : tileMachine.p.wf = true ∧ 0 ≤ 8 ∧ 8 ≤ 8 ∧
    { tileMachine.accessRun with work := { Working.reset with mask := columnMask 3 } }.work.mask = columnMask 3 ∧
    (0 ≠ (Fin.rev 3 : Lane)) ∧ 64 ≠ planarAddr (at0 0) 7 7 :=
  ⟨tile_wf.1, by decide, by decide, rfl, by decide, by decide⟩

theorem witness_EncodeColumnIsNonDestructive : tileMachine.accessRun.p.wf = true ∧ (7 : Lane) ≠ 0 :=
  ⟨tile_wf.1, by decide⟩

theorem witness_AccessSequencesTouch : InFootprint (at0 3) 3 ∧ InFootprint (at0 3) 66 ∧ ¬ InFootprint (at0 3) 2 ∧
    ¬ InFootprint (at0 3) 67 := ⟨edges.1, edges.2.1, edges.2.2.1, edges.2.2.2.1⟩

/-! ### The machine and its host -/

theorem witness_IssueCapturesTheCommand :
    (doing [.issue 0x1010] tileMachine).codec.phase = .idle ∧
    decode tileMachine.env.widths 0x1010 = .ok (.decode (at0 0)) ∧
    racesWith tileMachine.env (tileMachine.env.accesses (.decode (at0 0))) [busyCodec (.encode ⟨7, 8, 0, 0, 0⟩)] = false ∧
    racesWith tileMachine.env (tileMachine.env.accesses (.decode (at0 0))) [] = false := by decide +kernel

/-- Two instances that run commands that do not race, a DECODE each. -/
def twoRunning : State := busyWith (.decode ⟨8, 8, 64, 8, 0⟩) { wideMachine with others := [busyCodec (.decode (at0 0))] }

/-- An idle instance in turn, one more, and one that runs a command. -/
def besideRunning : State := { wideMachine with others := [Codec.reset, busyCodec (.decode (at0 0))] }

theorem beside_admits : besideRunning.env.Admits (at0 0) := by unfold Env.Admits; decide

/-- Nothing to do; a second issue; a response awaited; another instance's command; and a placed word. -/
theorem witness_StepRunsTheCapturedCommand :
    (busyWith (.decode (at0 0)) tileMachine).codec.phase = .busy ∧
    (busyWith (.decode (at0 0)) tileMachine).host = [] ∧
    (∃ w rest, (busyWith (.decode (at0 0)) (doing [.issue 0x1010] tileMachine)).host = .issue w :: rest) ∧
    (busyWith (.decode (at0 0)) tileMachine).codec.pending = [] ∧
    (∃ rest, (busyWith (.decode (at0 0)) (doing [.takeResponse] tileMachine)).host = .takeResponse :: rest) ∧
    (besideRunning.codec.phase = .idle ∧ besideRunning.host = [] ∧ besideRunning.codec.pending = [] ∧
      besideRunning.others = [Codec.reset] ++ busyCodec (.decode (at0 0)) :: [] ∧
      (∀ d ∈ [Codec.reset], d.phase = .idle) ∧ (busyCodec (.decode (at0 0))).phase = .busy) ∧
    (∃ t, exec (busyCodec (.decode (at0 0))).cmd { besideRunning with codec := busyCodec (.decode (at0 0)) } = .next t) ∧
    decode tileMachine.env.widths (0x1011 % 2 ^ 88) = .ok (.encode (at0 0)) :=
  ⟨rfl, rfl, ⟨_, _, rfl⟩, rfl, ⟨_, rfl⟩, ⟨rfl, rfl, rfl, rfl, by decide, rfl⟩,
    ⟨_, execDecode_of_admits (s := { besideRunning with codec := busyCodec (.decode (at0 0)) }) beside_admits
      (imageInStore_of_contract beside_admits (rowMajor_contract rfl))⟩, by decide⟩

theorem witness_IdleBlockDoesNothing : (∀ c ∈ tileMachine.codecs, c.phase = .idle) ∧ tileMachine.host = [] := by
  decide +kernel

/-- Two commands in flight. -/
theorem witness_EveryAcceptedCommandResponds : twoRunning.env.AddressContract ∧ twoRunning.host = [] ∧
    twoRunning.inFlight = 2 := ⟨rowMajor_contract rfl, rfl, rfl⟩

/-- No step at all where there is nothing to do, and one where one command is left. -/
theorem witness_NoCommandRunsForEver : tileMachine.workLeft ≤ 0 ∧ Runs 0 tileMachine tileMachine ∧
    besideRunning.workLeft ≤ 1 ∧ ∃ t, Runs 1 besideRunning t := by
  have hstep : step besideRunning =
      besideRunning.completeBeside [Codec.reset] (busyCodec (.decode (at0 0))) [] := rfl
  obtain ⟨t, ht⟩ : ∃ t, step besideRunning = .next t :=
    ⟨_, hstep.trans (completeBeside_of_next (execDecode_of_admits
      (s := { besideRunning with codec := busyCodec (.decode (at0 0)) }) beside_admits
      (imageInStore_of_contract beside_admits (rowMajor_contract rfl))))⟩
  exact ⟨by decide +kernel, rfl, by decide +kernel, t, t, ht, rfl⟩

theorem witness_TakeResponseTakesTheOldest :
    { Codec.reset with pending := [⟨.outOfRange, .decode (at0 1)⟩, ⟨.ok, .decode (at0 0)⟩] }.pending =
      ⟨.outOfRange, .decode (at0 1)⟩ :: [⟨.ok, .decode (at0 0)⟩] ∧
    (doing [.takeResponse] tileMachine).host = .takeResponse :: [] := ⟨rfl, rfl⟩

theorem witness_IssueThenTakeIsOneCommand :
    (doing [.issue 0x1010, .takeResponse] tileMachine).codec.phase = .idle ∧
    (doing [.issue 0x1010, .takeResponse] tileMachine).codec.pending = [] ∧
    decode tileMachine.env.widths 0x1010 = .ok (.decode (at0 0)) ∧
    racesWith tileMachine.env (tileMachine.env.accesses (.decode (at0 0))) tileMachine.others = false ∧
    ∃ u, exec (.decode (at0 0)) (doing [.issue 0x1010, .takeResponse] tileMachine) = .next u :=
  ⟨rfl, rfl, by decide, by decide +kernel,
    ⟨_, execDecode_of_admits (s := doing [.issue 0x1010, .takeResponse] tileMachine) tile_admits
      (imageInStore_of_contract tile_admits (rowMajor_contract rfl))⟩⟩

/-- The first and the last byte of each memory, each access in turn. -/
theorem witness_HostAccessesBetweenCommands :
    (∀ c ∈ tileMachine.codecs, c.outstanding = []) ∧ 0 < tileMachine.env.pbufLen ∧ 63 < tileMachine.env.pbufLen ∧
    0 < tileMachine.env.gridLen ∧ 63 < tileMachine.env.gridLen ∧ tileMachine.p.wf = true ∧ tileMachine.g.wf = true ∧
    (doing [.writePlanar 63 1] tileMachine).host = .writePlanar 63 1 :: [] ∧
    (doing [.writePixel 63 1] tileMachine).host = .writePixel 63 1 :: [] ∧
    (doing [.readPlanar 63] tileMachine).host = .readPlanar 63 :: [] ∧
    (doing [.readPixel 63] tileMachine).host = .readPixel 63 :: [] := by decide +kernel

/-- A command that runs, and the first byte past its footprint; the first index past its image, and one just before it; a
read of a byte that the running command only reads. -/
theorem witness_HostAccessesBesideACommand :
    let s := busyWith (.decode ⟨8, 8, 63, 8, 0⟩) wideMachine
    let u := busyWith (.encode ⟨8, 8, 63, 8, 0⟩) wideMachine
    s.codecs = [s.codec] ∧ s.codec.outstanding = [.decode ⟨8, 8, 63, 8, 0⟩] ∧
    s.env.Admits ⟨8, 8, 63, 8, 0⟩ ∧ 127 < s.env.pbufLen ∧ 7 < s.env.gridLen ∧ s.p.wf = true ∧ s.g.wf = true ∧
    ¬ InFootprint ⟨8, 8, 63, 8, 0⟩ 62 ∧ ¬ InFootprint ⟨8, 8, 63, 8, 0⟩ 127 ∧ ¬ s.env.InImage ⟨8, 8, 63, 8, 0⟩ 7 ∧
    (∀ f, .encode f ∉ s.codec.outstanding) ∧ (∀ f, .decode f ∉ u.codec.outstanding) ∧
    (doing [.writePlanar 127 1] s).host = .writePlanar 127 1 :: [] := by
  refine ⟨rfl, rfl, by unfold Env.Admits; decide, by decide, by decide, by decide +kernel, rfl,
    by unfold InFootprint; decide, by unfold InFootprint; decide, by unfold Env.InImage; decide, ?_, ?_, rfl⟩ <;>
  · intro f hf
    cases List.mem_singleton.1 hf

theorem witness_HostAccessOutsideFaults :
    tileMachine.env.pbufLen ≤ 64 ∧ tileMachine.env.AddressContract ∧ tileMachine.env.gridLen ≤ 64 ∧
    (doing [.writePlanar 64 1] tileMachine).host = .writePlanar 64 1 :: [] ∧
    (doing [.readPixel 64] tileMachine).host = .readPixel 64 :: [] :=
  ⟨by decide, rowMajor_contract rfl, by decide, rfl, rfl⟩

/-- The last byte of the footprint and the last index of the image, for all four accesses; a command that runs on another
instance, and one whose response is not taken. -/
theorem witness_HostRaceIsRefused :
    (busyWith (.encode (at0 3)) shiftedMachine).codec ∈ (busyWith (.encode (at0 3)) shiftedMachine).codecs ∧
    .encode (at0 3) ∈ (busyWith (.encode (at0 3)) shiftedMachine).codec.outstanding ∧
    busyCodec (.decode (at0 3)) ∈ { shiftedMachine with others := [busyCodec (.decode (at0 3))] }.codecs ∧
    .decode (at0 3) ∈ (busyCodec (.decode (at0 3))).outstanding ∧
    .decode (at0 3) ∈ { Codec.reset with pending := [⟨.ok, .decode (at0 3)⟩] }.outstanding ∧
    shiftedMachine.env.Admits (at0 3) ∧ InFootprint (at0 3) 66 ∧ shiftedMachine.env.InImage (at0 3) 63 ∧
    (doing [.writePlanar 66 1] (busyWith (.encode (at0 3)) shiftedMachine)).host = .writePlanar 66 1 :: [] ∧
    (doing [.writePixel 63 1] (busyWith (.encode (at0 3)) shiftedMachine)).host = .writePixel 63 1 :: [] :=
  ⟨List.mem_cons_self .., List.mem_cons_self .., List.mem_cons_of_mem _ (List.mem_cons_self ..), List.mem_cons_self ..,
    List.mem_cons_self .., shifted_admits, edges.2.1, by unfold Env.InImage; decide, rfl, rfl⟩

/-- An idle instance in turn beside one that runs the DECODE of a tile at 0 into the left half of the grid. -/
def besideDecode : State := { wideMachine with others := [busyCodec (.decode (at0 0))] }

/-- A command that meets the last byte of a footprint, and one that meets the first index of an image; beside a command
that runs, and beside one whose response is not taken. -/
theorem witness_RacingCommandIsRefused :
    besideDecode.codec.phase = .idle ∧ busyCodec (.decode (at0 0)) ∈ besideDecode.others ∧
    .decode (at0 0) ∈ (busyCodec (.decode (at0 0))).outstanding ∧
    .encode (at0 0) ∈ { Codec.reset with pending := [⟨.ok, .encode (at0 0)⟩] }.outstanding ∧
    decode besideDecode.env.widths 0x00000000000007e1011 = .ok (.encode (at0 63)) ∧
    decode besideDecode.env.widths 0x1010 = .ok (.decode (at0 0)) ∧
    besideDecode.env.Admits (at0 0) ∧ besideDecode.env.Admits (at0 63) ∧
    (Instr.encode (at0 63)).op = 1 ∧ 63 < 0 + 64 ∧ 0 < 63 + 64 ∧ (Instr.decode (at0 0)).op = 0 ∧
    besideDecode.env.InImage (at0 0) 0 :=
  ⟨rfl, List.mem_cons_self .., List.mem_cons_self .., List.mem_cons_self .., by decide, by decide,
    by unfold Env.Admits; decide, by unfold Env.Admits; decide, rfl, by decide, by decide, rfl, ⟨0, 0, rfl⟩⟩

/-- A DECODE of the same tile into the other half beside a running DECODE, and an ENCODE 64 away from a running ENCODE. -/
theorem witness_RaceFreeCommandIsAccepted :
    besideDecode.codec.phase = .idle ∧
    decode besideDecode.env.widths 0x000000010000000001010 = .ok (.decode ⟨8, 8, 0, 8, 0⟩) ∧
    (∀ n, besideDecode.env.InImage ⟨8, 8, 0, 8, 0⟩ n → ¬ besideDecode.env.InImage (at0 0) n) ∧
    (Instr.decode ⟨8, 8, 0, 8, 0⟩).op ≠ 1 ∧ (Instr.decode (at0 0)).op ≠ 1 ∧
    decode besideDecode.env.widths 0x0801011 = .ok (.encode (at0 64)) ∧
    (at0 0).tileAddr + 64 ≤ (at0 64).tileAddr ∧ (Instr.encode (at0 0)).op ≠ 0 := by
  refine ⟨rfl, by decide, ?_, by decide, by decide, by decide, by decide, by decide⟩
  rintro n ⟨x, y, rfl⟩
  unfold Env.InImage
  revert x y
  decide

/-- Two DECODEs of one tile into disjoint halves of the grid, and a command that fails its checks. -/
theorem witness_RaceFreeCommandsCommute : wideMachine.p.wf = true ∧ wideMachine.g.wf = true ∧
    wideMachine.env.Contracts (at0 0) ∧ wideMachine.env.Contracts ⟨8, 8, 0, 8, 0⟩ ∧
    (wideMachine.env.accesses (.decode (at0 0))).races (wideMachine.env.accesses (.decode ⟨8, 8, 0, 8, 0⟩)) = false ∧
    (wideMachine.env.accesses (.encode (at0 0))).races (wideMachine.env.accesses (.encode (at0 65))) = false :=
  ⟨by decide +kernel, rfl, wide_contracts _, wide_contracts _, by decide +kernel, by decide +kernel⟩

theorem witness_ReconfigureOnlyBetweenCommands :
    (doing [.reconfigure .mirrored] tileMachine).host = .reconfigure .mirrored :: [] ∧
    (∀ c ∈ tileMachine.codecs, c.outstanding = []) ∧
    (∃ c ∈ (busyWith (.decode (at0 0)) tileMachine).codecs, c.outstanding ≠ []) ∧
    { Codec.reset with pending := [⟨.ok, .decode (at0 0)⟩] }.outstanding ≠ [] :=
  ⟨rfl, by decide +kernel, ⟨_, List.mem_cons_self .., by decide⟩, by decide⟩

theorem witness_TurnKeepsAllCodecs :
    (doing [.turn] { tileMachine with others := [busyCodec (.decode (at0 0))] }).host = .turn :: [] := rfl

theorem witness_OnlyAdvanceIsReconfigured :
    ∃ t, step (doing [.reconfigure .mirrored] tileMachine) = .next t ∧ t.env.transform = .mirrored := ⟨_, rfl, rfl⟩

/-! ### Reset -/

theorem witness_ResetTouchesNoMemory :
    (doing [.reset] tileMachine).host = .reset :: [] ∧ (doing [.reset] tileMachine).codec.phase = .idle ∧
    ¬ tileMachine.env.Admits (busyWith (.decode (at0 1)) tileMachine).codec.cmd.fields :=
  ⟨rfl, rfl, witness_FaultChangesNoByte⟩

theorem witness_ResetAbandonsEncode :
    (busyWith (.encode (at0 3)) (doing [.reset] shiftedMachine)).host = .reset :: [] ∧
    (busyWith (.encode (at0 3)) (doing [.reset] shiftedMachine)).codec.phase = .busy ∧
    (busyWith (.encode (at0 3)) (doing [.reset] shiftedMachine)).codec.cmd = .encode (at0 3) ∧
    shiftedMachine.env.Admits (at0 3) ∧ shiftedMachine.env.AddressContract ∧ shiftedMachine.p.wf = true ∧
    ¬ InFootprint (at0 3) 2 ∧ ¬ InFootprint (at0 3) 67 :=
  ⟨rfl, rfl, rfl, shifted_admits, rowMajor_contract rfl, shifted_wf.1, edges.2.2.1, edges.2.2.2.1⟩

theorem witness_ResetAbandonsDecode :
    (busyWith (.decode (at0 3)) (doing [.reset] shiftedMachine)).host = .reset :: [] ∧
    (busyWith (.decode (at0 3)) (doing [.reset] shiftedMachine)).codec.phase = .busy ∧
    (busyWith (.decode (at0 3)) (doing [.reset] shiftedMachine)).codec.cmd = .decode (at0 3) ∧
    shiftedMachine.env.Admits (at0 3) ∧ shiftedMachine.env.Contracts (at0 3) ∧ shiftedMachine.g.wf = true ∧
    ¬ shiftedMachine.env.InImage (at0 3) 64 :=
  ⟨rfl, rfl, rfl, shifted_admits, shifted_contracts _, shifted_wf.2, by unfold Env.InImage; decide⟩

/-! ### Invariants -/

/-- A command of the largest legal fields in flight, its step answering a next state. -/
theorem witness_EveryStepKeepsTheInvariant :
    (busyWith (.decode ⟨7, 8, 2 ^ 32 - 1, 0, 2 ^ 16 - 1⟩) tileMachine).Inv ∧
    ∃ t, step (busyWith (.decode ⟨7, 8, 2 ^ 32 - 1, 0, 2 ^ 16 - 1⟩) tileMachine) = .next t :=
  ⟨by unfold State.Inv Env.wf; decide +kernel, ⟨_, (step_of_busy rfl rfl).trans (exec_of_check (k := .invalidDimensions) (by decide))⟩⟩

/-- Two commands in flight that do not race, and the one in turn completes. -/
theorem witness_EveryStepKeepsRaceFreedom : twoRunning.RaceFree ∧ ∃ t, step twoRunning = .next t :=
  ⟨by unfold State.RaceFree; decide +kernel, ⟨_, (step_of_busy (s := twoRunning) rfl rfl).trans
    (execDecode_of_admits (s := twoRunning) wide_admits
      (imageInStore_of_contract wide_admits (rowMajor_contract rfl)))⟩⟩

end Sys2Proof.Tests
end

