-- ==== Sys2Proof/Proofs/Invariant.lean ====
section
/-! The invariant of the machine, in two halves: each memory stays canonical and inside its space, and every captured or
answered command keeps its widths. Each operation of the state keeps both; a step is one of those operations. -/

namespace Sys2Proof.Machine

/-! ### The parts of the invariant -/

/-- A memory in canonical form and inside a space of `n` bytes (R41, R42). -/
def Memory.Fits (m : Memory) (n : Nat) : Prop := m.wf ∧ m.below n

/-- The commands a codec holds, the captured one and those its pending responses answer, have their widths (R25, R71). -/
def Codec.Fits (ws : Widths) (c : Codec) : Prop := c.cmd.wf ws ∧ ∀ r ∈ c.pending, r.cmd.wf ws

theorem Memory.Fits.write {m : Memory} {n a : Nat} (hm : m.Fits n) (v : Byte) (ha : a < n) : (m.write a v).Fits n :=
  ⟨Memory.write_wf a v hm.1, Memory.write_below v hm.2 ha⟩

theorem Memory.Fits.writeAll {m : Memory} {n : Nat} {cells : List Host.Cell} (hm : m.Fits n)
    (hc : ∀ c ∈ cells, c.1 < n) : (m.writeAll cells).Fits n :=
  ⟨Memory.writeAll_wf cells hm.1, Memory.writeAll_below hm.2 hc⟩

theorem State.inv_iff {s : State} : s.Inv ↔ s.env.wf ∧ s.p.Fits s.env.pbufLen ∧ s.g.Fits s.env.gridLen ∧
    s.codec.Fits s.env.widths ∧ ∀ c ∈ s.others, c.Fits s.env.widths := by
  simp only [State.Inv, Memory.Fits, Codec.Fits, State.codecs, List.forall_mem_cons]
  tauto

/-! ### Operations that keep the memories -/

/-- Where neither memory nor the environment changes, only the codecs have to be looked at. -/
theorem State.Inv.of_same_memories {s t : State} (hs : s.Inv) (he : t.env = s.env) (hp : t.p = s.p) (hg : t.g = s.g)
    (hc : t.codec.Fits s.env.widths) (ho : ∀ c ∈ t.others, c.Fits s.env.widths) : t.Inv := by
  obtain ⟨hwf, hfp, hfg, -, -⟩ := State.inv_iff.1 hs
  rw [State.inv_iff, he, hp, hg]
  exact ⟨hwf, hfp, hfg, hc, ho⟩

theorem State.Inv.accept {s : State} {i : Instr} (hs : s.Inv) (hi : i.wf s.env.widths) : (s.accept i).Inv := by
  obtain ⟨-, -, -, ⟨-, hpend⟩, ho⟩ := State.inv_iff.1 hs
  exact hs.of_same_memories rfl rfl rfl ⟨hi, hpend⟩ ho

theorem State.Inv.respond {s : State} {i : Instr} (hs : s.Inv) (hi : i.wf s.env.widths) (st : Status) :
    (s.respond i st).Inv := by
  obtain ⟨-, -, -, ⟨-, hpend⟩, ho⟩ := State.inv_iff.1 hs
  refine hs.of_same_memories rfl rfl rfl ⟨unspecifiedCommand_wf _ _, ?_⟩ ho
  rw [State.respond_pending]
  exact List.forall_mem_append.2 ⟨hpend, List.forall_mem_singleton.2 hi⟩

theorem State.Inv.take {s : State} {r : Response} {rest : List Response} (hs : s.Inv)
    (hp : s.codec.pending = r :: rest) : (s.take r rest).Inv := by
  obtain ⟨-, -, -, ⟨hcmd, hpend⟩, ho⟩ := State.inv_iff.1 hs
  rw [hp, List.forall_mem_cons] at hpend
  exact hs.of_same_memories rfl rfl rfl ⟨hcmd, hpend.2⟩ ho

theorem State.Inv.idleAfterReset {s : State} (hs : s.Inv) : s.idleAfterReset.Inv := by
  obtain ⟨-, -, -, -, ho⟩ := State.inv_iff.1 hs
  exact hs.of_same_memories rfl rfl rfl ⟨unspecifiedCommand_wf _ _, List.forall_mem_nil _⟩ ho

theorem State.Inv.turn {s : State} (hs : s.Inv) : s.turn.Inv := by
  obtain ⟨-, -, -, hc, ho⟩ := State.inv_iff.1 hs
  unfold State.turn
  split
  · exact hs
  · next c cs hcs =>
    rw [hcs, List.forall_mem_cons] at ho
    exact hs.of_same_memories rfl rfl rfl ho.1 (List.forall_mem_append.2 ⟨ho.2, List.forall_mem_singleton.2 hc⟩)

/-! ### Operations that write a memory -/

theorem State.Inv.withP {s : State} {m : Memory} (hs : s.Inv) (hm : m.Fits s.env.pbufLen) : (s.withP m).Inv := by
  obtain ⟨hwf, -, hfg, hc, ho⟩ := State.inv_iff.1 hs
  exact State.inv_iff.2 ⟨hwf, hm, hfg, hc, ho⟩

theorem State.Inv.withG {s : State} {m : Memory} (hs : s.Inv) (hm : m.Fits s.env.gridLen) : (s.withG m).Inv := by
  obtain ⟨hwf, hfp, -, hc, ho⟩ := State.inv_iff.1 hs
  exact State.inv_iff.2 ⟨hwf, hfp, hm, hc, ho⟩

/-- The footprint of an admitted command lies in the planar buffer (R66, R141 a). -/
theorem lt_pbufLen_of_inFootprint {e : Env} {f : Fields} {a : Nat} (hf : e.Admits f) (ha : InFootprint f a) :
    a < e.pbufLen := by
  obtain ⟨-, -, hroom, -⟩ := hf
  obtain ⟨-, hlt⟩ := ha
  omega

theorem lt_gridLen_of_inImage {e : Env} {f : Fields} {n : Nat} (hi : e.imageInStore f) (hn : e.InImage f n) :
    n < e.gridLen := by
  obtain ⟨x, y, rfl⟩ := hn
  exact imageInStore_iff.1 hi x y

/-- The writes of an admitted ENCODE stay in the planar buffer. -/
theorem packedCells_fits {e : Env} {f : Fields} {p : Memory} (g : Memory) (hp : p.Fits e.pbufLen) (hf : e.Admits f) :
    (p.writeAll (e.packedCells f g)).Fits e.pbufLen := by
  refine hp.writeAll fun c hc => ?_
  obtain ⟨b, y, rfl⟩ := mem_packedCells.1 hc
  exact lt_pbufLen_of_inFootprint hf (planarAddr_inFootprint f b y)

/-- The writes of a DECODE whose image is in the store stay in it. -/
theorem unpackedCells_fits {e : Env} {f : Fields} {g : Memory} (p : Memory) (n : Nat) (hg : g.Fits e.gridLen)
    (hi : e.imageInStore f) : (g.writeAll (e.unpackedCells f p n)).Fits e.gridLen := by
  refine hg.writeAll fun c hc => ?_
  obtain ⟨x, y, rfl⟩ := mem_unpackedCells.1 hc
  exact lt_gridLen_of_inImage hi ⟨x, y, rfl⟩

/-- Abandoning an admitted command keeps the invariant: it writes only bytes the command could have written (U6). -/
theorem State.Inv.abandon {s : State} {i : Instr} (hs : s.Inv) (hf : s.env.Admits i.fields)
    (hi : s.env.imageInStore i.fields) : (s.abandon i).Inv := by
  obtain ⟨hwf, hfp, hfg, hc, ho⟩ := State.inv_iff.1 hs
  obtain ⟨pcells, hp, hpcells⟩ := abandon_p_cells s i
  obtain ⟨gcells, hg, hgcells⟩ := abandon_g_cells s i
  rw [State.inv_iff, State.abandon_env, State.abandon_codec, State.abandon_others, hp, hg]
  exact ⟨hwf, hfp.writeAll fun c hc => lt_pbufLen_of_inFootprint hf (hpcells c hc),
    hfg.writeAll fun c hc => lt_gridLen_of_inImage hi (hgcells c hc), hc, ho⟩

/-! ### Commands, host actions and steps -/

/-- A well-formed command that completes keeps the invariant, whether it raises or runs. -/
theorem exec_keeps_inv {i : Instr} {s t : State} (hs : s.Inv) (hi : i.wf s.env.widths) (h : exec i s = .next t) :
    t.Inv := by
  obtain ⟨-, hfp, hfg, -, -⟩ := State.inv_iff.1 hs
  rcases exec_next h with ⟨k, -, rfl⟩ | ⟨hf, him, p, g, rfl, hwrites⟩
  · exact hs.respond hi k.status
  · have hfits : p.Fits s.env.pbufLen ∧ g.Fits s.env.gridLen := by
      rcases hwrites with ⟨f, rfl, hp, hg⟩ | ⟨f, rfl, hg, hp⟩
      · rw [hp, hg]
        exact ⟨hfp, unpackedCells_fits s.p s.draws hfg him⟩
      · rw [hp, hg]
        exact ⟨packedCells_fits s.g hfp hf, hfg⟩
    exact ((hs.withP hfits.1).withG hfits.2).respond hi .ok

theorem resetCodec_keeps_inv {s t : State} (hs : s.Inv) (h : s.resetCodec = .next t) : t.Inv := by
  rcases resetCodec_next h with ⟨rfl, -⟩ | ⟨rfl, -, hf, hi⟩
  · exact hs.idleAfterReset
  · exact (hs.abandon hf hi).idleAfterReset

theorem act_keeps_inv {s t : State} {a : HostAction} (hs : s.Inv) (h : s.act a = .next t) : t.Inv := by
  obtain ⟨hwf, hfp, hfg, hc, ho⟩ := State.inv_iff.1 hs
  obtain ⟨-, hacts⟩ := act_next h
  cases hacts with
  | issue hd _ => exact hs.accept (decode_wf hd)
  | nothing _ => exact hs
  | take hp => exact hs.take hp
  | reset hr => exact resetCodec_keeps_inv hs hr
  | readPlanar _ => exact hs.of_same_memories rfl rfl rfl hc ho
  | writePlanar ha => exact hs.withP (hfp.write _ ha)
  | readPixel _ => exact hs.of_same_memories rfl rfl rfl hc ho
  | writePixel hn => exact hs.withG (hfg.write _ hn)
  | reconfigure _ => exact State.inv_iff.2 ⟨hwf, hfp, hfg, hc, ho⟩
  | turn => exact hs.turn

/-- While the host does nothing the invariant stays: the one codec whose command completes is seen as the codec in turn,
where `exec_keeps_inv` speaks of it, and is then put back among the others. -/
theorem await_keeps_inv {s t : State} (hs : s.Inv) (h : AwaitsTo s t) : t.Inv := by
  obtain ⟨-, -, -, hc, ho⟩ := State.inv_iff.1 hs
  cases h with
  | nothing _ => exact hs
  | complete _ hexec => exact exec_keeps_inv hs hc.1 hexec
  | @beside pre c post u _ hsplit _ _ hexec =>
    obtain ⟨hpre, hbusy, hpost⟩ : (∀ d ∈ pre, d.Fits s.env.widths) ∧ c.Fits s.env.widths ∧
        ∀ d ∈ post, d.Fits s.env.widths := by
      rwa [hsplit, List.forall_mem_append, List.forall_mem_cons] at ho
    have hturn : ({ s with codec := c } : State).Inv := hs.of_same_memories rfl rfl rfl hbusy ho
    have hu : u.Inv := exec_keeps_inv hturn hbusy.1 hexec
    obtain ⟨⟨henv : u.env = s.env, -⟩, -⟩ := exec_surroundings hexec
    obtain ⟨-, -, -, hdone, -⟩ := State.inv_iff.1 hu
    rw [← henv] at hc hpre hpost
    exact hu.of_same_memories rfl rfl rfl hc
      (List.forall_mem_append.2 ⟨hpre, List.forall_mem_cons.2 ⟨hdone, hpost⟩⟩)

theorem step_keeps_inv {s t : State} (hs : s.Inv) (h : step s = .next t) : t.Inv := by
  rcases step_next h with hawait | ⟨a, rest, -, -, hact⟩
  · exact await_keeps_inv hs hawait
  · obtain ⟨-, -, -, hc, ho⟩ := State.inv_iff.1 hs
    have htaken : ({ s with host := rest } : State).Inv := hs.of_same_memories rfl rfl rfl hc ho
    exact act_keeps_inv htaken hact

/-! ### Reset -/

theorem Memory.fits_nil (n : Nat) : Memory.Fits [] n := ⟨rfl, rfl⟩

theorem Env.reset_wf : Env.reset.wf := ⟨by decide, by decide, le_refl _⟩

theorem Codec.reset_fits (ws : Widths) : Codec.reset.Fits ws :=
  ⟨by simp [Codec.reset, Instr.wf, Instr.fields, Fields.wf], List.forall_mem_nil _⟩

theorem State.reset_inv : State.reset.Inv :=
  State.inv_iff.2 ⟨Env.reset_wf, Memory.fits_nil _, Memory.fits_nil _, Codec.reset_fits _, List.forall_mem_nil _⟩

/-- A lone codec has no other to race with. -/
theorem raceFree_of_others_nil {s : State} (h : s.others = []) : s.RaceFree := by
  rw [State.RaceFree, State.codecs, h]
  exact List.pairwise_singleton _ _

/-! ### The statements -/

/-- Settles O54: a step is a command's completion or a host action, and each keeps the invariant. -/
theorem everyStepKeepsTheInvariant : Obligations.EveryStepKeepsTheInvariant :=
  fun _ _ hs h => step_keeps_inv hs h

/-- Settles O53: both memories are empty at reset, the captured fields are zero, and there is one codec. -/
theorem invariantHoldsAtReset : Obligations.InvariantHoldsAtReset :=
  ⟨State.reset_inv, raceFree_of_others_nil rfl⟩

end Sys2Proof.Machine
end

section
/-! Steps forward. The inversions of `Laws/Step.lean` say what a step has done that answered a next state; the equations here say
when a step, a host action, a reset or a completion answers one, and which. -/

namespace Sys2Proof.Machine

/-! ### What a step is -/

section Step
variable {s : State} {a : HostAction} {rest : List HostAction}

/-- With nothing for the host to do, the codecs go on by themselves. -/
theorem step_of_host_nil (hh : s.host = []) : step s = s.await := by
  simp [step, State.advance, hh]

/-- A host that waits leaves its action where it is (log 28). -/
theorem step_of_waits (hh : s.host = a :: rest) (hw : s.waits a = true) : step s = s.await := by
  simp [step, State.advance, hh, hw]

/-- A host that need not wait takes its next action. -/
theorem step_of_not_waits (hh : s.host = a :: rest) (hw : s.waits a = false) :
    step s = ({ s with host := rest } : State).act a := by
  simp [step, State.advance, hh, hw]

end Step

/-! ### When the host waits -/

@[simp] theorem waits_issue (s : State) (w : Nat) : s.waits (.issue w) = decide (s.codec.phase = .busy) := rfl

@[simp] theorem waits_takeResponse (s : State) : s.waits .takeResponse = decide (s.codec.pending = []) := rfl

@[simp] theorem waits_reset (s : State) : s.waits .reset = false := rfl

/-! ### What the host's actions do -/

/-- A word that decodes, and whose command races with no other codec, is accepted (R25, R27, R73). -/
theorem act_issue {s : State} {w : Nat} {i : Instr} (hd : decode s.env.widths w = .ok i)
    (hr : racesWith s.env (s.env.accesses i) s.others = false) : s.act (.issue w) = .next (s.accept i) := by
  simp [State.act, HostAction.accesses, racesWith_empty, State.present, hd, hr]

/-- The response at the head of the queue is taken (R26, R58; log 15). -/
theorem act_takeResponse {s : State} {r : Response} {more : List Response} (hp : s.codec.pending = r :: more) :
    s.act .takeResponse = .next (s.take r more) := by
  simp [State.act, HostAction.accesses, racesWith_empty, hp]

theorem act_reset (s : State) : s.act .reset = s.resetCodec := by
  simp [State.act, HostAction.accesses, racesWith_empty]

/-- The step in which the host resets the codec in turn (R32, R170). -/
theorem step_of_reset {s : State} {rest : List HostAction} (hh : s.host = .reset :: rest) :
    step s = ({ s with host := rest } : State).resetCodec :=
  (step_of_not_waits hh (waits_reset s)).trans (act_reset _)

/-- A reset of a codec that is `IDLE`, or whose command fails its checks, abandons nothing (R32, R145). -/
theorem resetCodec_of_not_running {s : State} (h : s.codec.phase = .idle ∨ ¬ s.env.Admits s.codec.cmd.fields) :
    s.resetCodec = .next s.idleAfterReset := by
  cases hphase : s.codec.phase with
  | idle => simp [State.resetCodec, hphase]
  | busy =>
    have hfails : ¬ s.env.Admits s.codec.cmd.fields := h.resolve_left (by simp [hphase])
    cases hcheck : s.env.check s.codec.cmd.fields with
    | none => exact absurd (check_eq_none_iff.1 hcheck) hfails
    | some k => simp [State.resetCodec, hphase, hcheck]

/-- A reset of a codec that runs an admitted command abandons it (R32, U6). -/
theorem resetCodec_of_running {s : State} (hb : s.codec.phase = .busy) (ha : s.env.Admits s.codec.cmd.fields)
    (hi : s.env.imageInStore s.codec.cmd.fields) : s.resetCodec = .next (s.abandon s.codec.cmd).idleAfterReset := by
  simp [State.resetCodec, hb, check_eq_none_iff.2 ha, hi]

/-! ### What the codecs do by themselves -/

theorem await_of_busy {s : State} (hb : s.codec.phase = .busy) : s.await = exec s.codec.cmd s := by
  simp [State.await, hb, State.complete]

/-- Where the codec in turn is `IDLE`, the first `BUSY` one beside it completes (log 18). -/
theorem await_of_beside {s : State} {pre post : List Codec} {c : Codec} (hi : s.codec.phase = .idle)
    (ho : s.others = pre ++ c :: post) (hpre : ∀ d ∈ pre, d.phase = .idle) (hb : c.phase = .busy) :
    s.await = s.completeBeside pre c post := by
  have hsplit : splitBusy s.others = some (pre, c, post) := splitBusy_eq_some.2 ⟨ho, hb, hpre⟩
  simp [State.await, hi, hsplit]

theorem await_of_idle {s : State} (hi : s.codec.phase = .idle) (ho : splitBusy s.others = none) :
    s.await = .next s := by
  simp [State.await, hi, ho]

/-- Under the contract of `address` every command answers a next state: it raises, or its image is in the store (R53). -/
theorem exists_exec_of_contract (i : Instr) {s : State} (hc : s.env.AddressContract) : ∃ t, exec i s = .next t := by
  cases hcheck : s.env.check i.fields with
  | some k => exact ⟨_, exec_of_check hcheck⟩
  | none =>
    have ha : s.env.Admits i.fields := check_eq_none_iff.1 hcheck
    have him : s.env.imageInStore i.fields := imageInStore_of_contract ha hc
    cases i with
    | decode f => exact ⟨_, execDecode_of_admits ha him⟩
    | encode f => exact ⟨_, execEncode_of_admits ha him⟩

/-- Under the contract of `address` the codecs never stop the machine. -/
theorem exists_await_of_contract {s : State} (hc : s.env.AddressContract) : ∃ t, s.await = .next t := by
  cases hphase : s.codec.phase with
  | busy => rw [await_of_busy hphase]; exact exists_exec_of_contract _ hc
  | idle =>
    cases hsplit : splitBusy s.others with
    | none => exact ⟨s, await_of_idle hphase hsplit⟩
    | some parts =>
      obtain ⟨pre, c, post⟩ := parts
      obtain ⟨ho, hb, hpre⟩ := splitBusy_eq_some.1 hsplit
      obtain ⟨u, hu⟩ := exists_exec_of_contract c.cmd (s := { s with codec := c }) hc
      exact ⟨_, (await_of_beside hphase ho hpre hb).trans (completeBeside_of_next hu)⟩

/-- A word placed at the codec in turn is its captured command, with nothing more for the host to do (log 2). -/
theorem withFetchWord_of_decode {s : State} {nbits w : Nat} {i : Instr}
    (h : decode s.env.widths (w % 2 ^ nbits) = .ok i) : s.withFetchWord nbits w = { s.accept i with host := [] } := by
  simp only [State.withFetchWord, State.placeWord, h]

end Sys2Proof.Machine
end

section
/-! What becomes of a command in flight, and of the environment around it: one codec completes at a time until none is `BUSY`, and
only the host's reconfiguration touches the environment. -/

namespace Sys2Proof.Machine

/-! ### One completion -/

/-- The command of one codec has completed, every other codec being as it was. -/
def CompletesOne (s t : State) : Prop :=
  t.env = s.env ∧ t.host = s.host ∧ ∃ (pre post : List Codec) (c d : Codec),
    s.codecs = pre ++ c :: post ∧ t.codecs = pre ++ d :: post ∧ c.phase = .busy ∧ d.phase = .idle ∧ c.Finishes d

/-- A `BUSY` codec whose command responds has finished. -/
theorem finishes_of_responds {s t : State} {st : Status} (hb : s.codec.phase = .busy)
    (h : Responds s.codec.cmd s t st) (htaken : t.codec.taken = s.codec.taken) : s.codec.Finishes t.codec := by
  simp only [Codec.Finishes, hb]
  exact ⟨h.1, htaken, st, h.2⟩

theorem finishes_self_of_idle {c : Codec} (hi : c.phase = .idle) : c.Finishes c := by
  simp [Codec.Finishes, hi]

theorem eq_of_finishes_of_idle {c d : Codec} (h : c.Finishes d) (hi : c.phase = .idle) : d = c := by
  simpa [Codec.Finishes, hi] using h

/-- Where nothing is in flight every codec is `IDLE`. -/
theorem inFlight_eq_zero {s : State} : s.inFlight = 0 ↔ ∀ c ∈ s.codecs, c.phase = .idle := by
  have hphase : ∀ p : Phase, ¬ p = .busy ↔ p = .idle := by rintro (_ | _) <;> simp
  simp [State.inFlight, List.countP_eq_zero, hphase]

/-- While the host does nothing and a command is in flight, one command completes: that of the codec in turn, or of the
first `BUSY` one beside it (R27, R180; log 18). -/
theorem AwaitsTo.completesOne {s t : State} (h : AwaitsTo s t) (hn : s.inFlight ≠ 0) : CompletesOne s t := by
  cases h with
  | nothing hidle => exact absurd (inFlight_eq_zero.2 hidle) hn
  | complete hb hexec =>
    obtain ⟨⟨henv, hothers, hhost, -, htaken⟩, st, hresp⟩ := exec_surroundings hexec
    refine ⟨henv, hhost, [], s.others, s.codec, t.codec, rfl, ?_, hb, hresp.1, finishes_of_responds hb hresp htaken⟩
    rw [State.codecs, hothers, List.nil_append]
  | @beside pre c post u _ ho _ hb hexec =>
    obtain ⟨⟨henv, -, hhost, -, htaken⟩, st, hresp⟩ := exec_surroundings hexec
    refine ⟨henv, hhost, s.codec :: pre, post, c, u.codec, ?_, rfl, hb, hresp.1, finishes_of_responds hb hresp htaken⟩
    rw [State.codecs, ho, List.cons_append]

theorem CompletesOne.inFlight {s t : State} (h : CompletesOne s t) : s.inFlight = t.inFlight + 1 := by
  obtain ⟨-, -, pre, post, c, d, hs, ht, hc, hd, -⟩ := h
  simp [State.inFlight, hs, ht, hc, hd, Nat.add_assoc]

/-! ### All completions -/

/-- Where every codec is `IDLE`, each has finished as it is. -/
theorem forall₂_finishes_of_idle {l : List Codec} (h : ∀ c ∈ l, c.phase = .idle) : List.Forall₂ Codec.Finishes l l :=
  List.forall₂_same.2 fun c hc => finishes_self_of_idle (h c hc)

/-- What finishes after one of its codecs has finished, finishes as a whole: that codec is `IDLE` by then and stays as
it is. -/
theorem forall₂_finishes_of_finishes {pre post us : List Codec} {c d : Codec} (hcd : c.Finishes d) (hd : d.phase = .idle)
    (h : List.Forall₂ Codec.Finishes (pre ++ d :: post) us) : List.Forall₂ Codec.Finishes (pre ++ c :: post) us := by
  induction pre generalizing us with
  | nil =>
    cases h with
    | cons hde hrest =>
      obtain rfl := eq_of_finishes_of_idle hde hd
      exact .cons hcd hrest
  | cons p ps ih =>
    cases h with
    | cons hp hrest => exact .cons hp (ih hrest)

/-- As many steps as there are commands in flight finish every codec (R27, R180). -/
theorem runs_inFlight {n : Nat} {s : State} (hn : s.inFlight = n) (hc : s.env.AddressContract) (hh : s.host = []) :
    ∃ t, Runs n s t ∧ List.Forall₂ Codec.Finishes s.codecs t.codecs ∧ t.env = s.env := by
  induction n generalizing s with
  | zero => exact ⟨s, rfl, forall₂_finishes_of_idle (inFlight_eq_zero.1 hn), rfl⟩
  | succ n ih =>
    obtain ⟨u, hu⟩ := exists_await_of_contract hc
    have hone : CompletesOne s u := (await_next hu).completesOne (by omega)
    have hleft : u.inFlight = n := by
      have := hone.inFlight
      omega
    obtain ⟨henv, hhost, pre, post, c, d, hs, hucodecs, -, hd, hcd⟩ := hone
    obtain ⟨t, hruns, hfin, htenv⟩ := ih hleft (henv ▸ hc) (hhost.trans hh)
    rw [hucodecs] at hfin
    refine ⟨t, ⟨u, (step_of_host_nil hh).trans hu, hruns⟩, ?_, htenv.trans henv⟩
    rw [hs]
    exact forall₂_finishes_of_finishes hcd hd hfin

/-! ### The environment -/

theorem resetCodec_env {s t : State} (h : s.resetCodec = .next t) : t.env = s.env := by
  rcases resetCodec_next h with ⟨rfl, -⟩ | ⟨rfl, -⟩
  · exact State.idleAfterReset_env s
  · rw [State.idleAfterReset_env, State.abandon_env]

/-- The codecs by themselves leave the environment alone (R30). -/
theorem AwaitsTo.env {s t : State} (h : AwaitsTo s t) : t.env = s.env := by
  cases h with
  | nothing _ => rfl
  | complete _ hexec =>
    obtain ⟨⟨henv, -⟩, -⟩ := exec_surroundings hexec
    exact henv
  | beside _ _ _ _ hexec =>
    obtain ⟨⟨henv, -⟩, -⟩ := exec_surroundings hexec
    exact henv

/-- A host action leaves the environment alone, but for a reconfiguration between commands (R179, R182). -/
theorem ActsTo.env {s t : State} {a : HostAction} (h : ActsTo s a t) : t.env = s.env ∨
    ∃ tr, a = .reconfigure tr ∧ t.env = { s.env with transform := tr } ∧ s.betweenCommands = true := by
  cases h with
  | reconfigure hb => exact .inr ⟨_, rfl, rfl, hb⟩
  | reset hr => exact .inl (resetCodec_env hr)
  | turn => exact .inl (State.turn_env s)
  | issue _ _ | nothing _ | take _ | readPlanar _ | writePlanar _ | readPixel _ | writePixel _ => exact .inl rfl

/-- A step leaves the environment alone, but for a reconfiguration between commands (R30, R182). -/
theorem step_env {s t : State} (h : step s = .next t) : t.env = s.env ∨
    ∃ tr rest, s.host = .reconfigure tr :: rest ∧ t.env = { s.env with transform := tr } ∧
      ∀ c ∈ s.codecs, c.outstanding = [] := by
  rcases step_next h with hawait | ⟨a, rest, hhost, -, hact⟩
  · exact .inl hawait.env
  · obtain ⟨-, hacts⟩ := act_next hact
    refine hacts.env.imp_right fun ⟨tr, ha, henv, hb⟩ => ⟨tr, rest, ?_, henv, betweenCommands_iff.1 hb⟩
    rw [hhost, ha]

end Sys2Proof.Machine
end

section
/-! What an abandoned command leaves in the memories (R32, U6): at each byte it could have written, one of the values its access
sequence passes through. -/

namespace Sys2Proof.Machine

/-! ### ENCODE -/

theorem abandon_encode_g (s : State) (f : Fields) : (s.abandon (.encode f)).g = s.g := by
  simp only [State.abandon, State.withP_g]

theorem abandon_encode_p (s : State) (f : Fields) : (s.abandon (.encode f)).p = s.p.writeAll (tileCoords.map fun c =>
    (planarAddr f c.1 c.2, s.env.abandonedPlane f s.p s.g s.draws c.1 c.2)) := by
  simp only [State.abandon, State.withP_p]

/-- Each plane byte of an abandoned ENCODE is the one its free choice names. -/
theorem read_abandon_encode {s : State} (f : Fields) (hp : s.p.wf) (b y : Lane) :
    (s.abandon (.encode f)).p.read (planarAddr f b y) = s.env.abandonedPlane f s.p s.g s.draws b y := by
  rw [abandon_encode_p]
  refine Memory.read_writeAll_of_mem hp (List.mem_map.2 ⟨(b, y), mem_tileCoords _, rfl⟩) fun cell hcell haddr => ?_
  obtain ⟨⟨b', y'⟩, -, rfl⟩ := List.mem_map.1 hcell
  obtain ⟨rfl, rfl⟩ := planarAddr_injective haddr
  rfl

/-- Whatever the choice, the byte is that of the access sequence after some number of columns (R112). -/
theorem abandonedPlane_eq_packColumns {s : State} (f : Fields) (hp : s.p.wf) (b y : Lane) :
    ∃ c ≤ 8, s.env.abandonedPlane f s.p s.g s.draws b y =
      (s.accessRun.packColumns s.env f (lanes.take c)).p.read (planarAddr f b y) := by
  refine ⟨Config.abandonedChoice s.draws (planarAddr f b y) % 9, by omega, ?_⟩
  obtain ⟨-, -, hbytes, -⟩ := packColumns_spec s.env f
    (lanes.take (Config.abandonedChoice s.draws (planarAddr f b y) % 9)) (r := s.accessRun) hp
  rw [hbytes b y]
  rfl

theorem read_abandon_p_of_not_inFootprint (s : State) (i : Instr) {a : Nat} (ha : ¬ InFootprint i.fields a) :
    (s.abandon i).p.read a = s.p.read a := by
  obtain ⟨cells, hp, hcells⟩ := abandon_p_cells s i
  rw [hp]
  exact Memory.read_writeAll_of_not_mem _ fun c hc heq => ha (heq ▸ hcells c hc)

/-! ### DECODE -/

theorem abandon_decode_p (s : State) (f : Fields) : (s.abandon (.decode f)).p = s.p := by
  simp only [State.abandon, State.withG_p]

theorem abandon_decode_g (s : State) (f : Fields) : (s.abandon (.decode f)).g =
    s.g.writeAll ((s.env.image f).map fun n => (n, s.env.abandonedPixel f s.p s.g s.draws n)) := by
  simp only [State.abandon, State.withG_g]

/-- Each image byte of an abandoned DECODE is the one its free choice names. -/
theorem read_abandon_decode {s : State} (f : Fields) (hg : s.g.wf) {n : Nat} (hn : s.env.InImage f n) :
    (s.abandon (.decode f)).g.read n = s.env.abandonedPixel f s.p s.g s.draws n := by
  rw [abandon_decode_g]
  refine Memory.read_writeAll_of_mem hg (List.mem_map.2 ⟨n, mem_image.2 hn, rfl⟩) fun cell hcell hindex => ?_
  obtain ⟨m, -, rfl⟩ := List.mem_map.1 hcell
  obtain rfl : m = n := hindex
  rfl

/-- The free choice is among the values that R32 allows. -/
theorem abandonedPixel_mem (e : Env) (f : Fields) (p g : Memory) (draw n : Nat) :
    e.abandonedPixel f p g draw n ∈ e.abandonedPixels f p g n := by
  have hlt : Config.abandonedChoice draw n % (e.abandonedPixels f p g n).length < (e.abandonedPixels f p g n).length :=
    Nat.mod_lt _ (by simp [Env.abandonedPixels])
  simp only [Env.abandonedPixel, List.getD_eq_getElem _ _ hlt, List.getElem_mem]

theorem mem_abandonedPixels {e : Env} {f : Fields} {p g : Memory} {n : Nat} {v : Byte} :
    v ∈ e.abandonedPixels f p g n ↔ v = g.read n ∨ ∃ x y, e.pix f x y = n ∧ unpackedPixel p f x y = v := by
  simp [Env.abandonedPixels]

/-- Under the contracts one pixel alone targets an index, so an abandoned DECODE leaves there the old byte or that pixel. -/
theorem abandonedPixel_eq {e : Env} {f : Fields} (p g : Memory) (draw : Nat) (ha : e.Admits f) (hc : e.Contracts f)
    (x y : Lane) : e.abandonedPixel f p g draw (e.pix f x y) = g.read (e.pix f x y) ∨
      e.abandonedPixel f p g draw (e.pix f x y) = unpackedPixel p f x y := by
  refine (mem_abandonedPixels.1 (abandonedPixel_mem e f p g draw _)).imp_right fun ⟨x', y', hpix, hval⟩ => ?_
  obtain ⟨rfl, rfl⟩ := pix_injective ha hc hpix
  exact hval.symm

/-- A pixel of DECODE takes its bit `b` from column `x` of plane `b` (R48, R100). -/
theorem unpackedPixel_getLsbD (p : Memory) (f : Fields) (x y b : Lane) :
    (unpackedPixel p f x y).getLsbD b.val = (p.read (planarAddr f b y)).getLsbD (7 - x.val) :=
  assemblePixel_getLsbD _ x b

theorem read_abandon_g_of_not_inImage (s : State) (i : Instr) {n : Nat} (hn : ¬ s.env.InImage i.fields n) :
    (s.abandon i).g.read n = s.g.read n := by
  obtain ⟨cells, hg, hcells⟩ := abandon_g_cells s i
  rw [hg]
  exact Memory.read_writeAll_of_not_mem _ fun c hc heq => hn (heq ▸ hcells c hc)

/-! ### The reset that abandons -/

theorem keepsSurroundings_abandon (s : State) (i : Instr) : KeepsSurroundings s (s.abandon i).idleAfterReset := by
  simp [KeepsSurroundings]

/-- The step that resets a codec running an admitted command (R32). -/
theorem step_of_reset_running {s : State} {rest : List HostAction} {i : Instr} (hh : s.host = .reset :: rest)
    (hb : s.codec.phase = .busy) (hcmd : s.codec.cmd = i) (ha : s.env.Admits i.fields) (hc : s.env.AddressContract) :
    step s = .next (({ s with host := rest } : State).abandon i).idleAfterReset := by
  subst hcmd
  exact (step_of_reset hh).trans
    (resetCodec_of_running (s := { s with host := rest }) hb ha (imageInStore_of_contract ha hc))

end Sys2Proof.Machine
end

section
/-! The statements about the state: the format's offsets, acceptance, the command that a step runs, responses, the environment,
and reset. -/

namespace Sys2Proof.Machine

/-- Settles O6: the table is `planeOffset` itself, and shift and mask are quotient and remainder by 2. -/
theorem planeOffsetTable : Obligations.PlaneOffsetTable := by
  refine ⟨rfl, fun b => ?_⟩
  rw [planeOffset_eq, Nat.shiftRight_one, Nat.and_one_is_mod]

/-- Settles O33: an `IDLE` codec does not make the host wait, and a word with no race is accepted. -/
theorem issueCapturesTheCommand : Obligations.IssueCapturesTheCommand := by
  intro s w rest i hidle hhost hdecode hrace
  have hstep : step s = .next (({ s with host := rest } : State).accept i) :=
    (step_of_not_waits hhost (by simp [hidle])).trans (act_issue (s := { s with host := rest }) hdecode hrace)
  exact ⟨_, hstep, rfl, rfl, rfl, rfl, rfl, rfl, rfl, rfl, rfl, rfl⟩

/-- Settles O34: in each case the step is `await`, which runs the codec in turn if it is `BUSY` and else the first `BUSY` one
beside it. -/
theorem stepRunsTheCapturedCommand : Obligations.StepRunsTheCapturedCommand := by
  refine ⟨fun s hbusy hhost => ?_, fun s t pre post c hidle hhost hothers hpre hbusy hexec => ?_,
    fun s nbits w i hdecode => ?_⟩
  · have hawait : step s = s.await := by
      rcases hhost with hnil | ⟨w, rest, hissue⟩ | ⟨hpending, rest, htake⟩
      · exact step_of_host_nil hnil
      · exact step_of_waits hissue (by simp [hbusy])
      · exact step_of_waits htake (by simp [hpending])
    exact hawait.trans (await_of_busy hbusy)
  · have hawait : step s = s.await := by
      rcases hhost with hnil | ⟨hpending, rest, htake⟩
      · exact step_of_host_nil hnil
      · exact step_of_waits htake (by simp [hpending])
    rw [hawait, await_of_beside hidle hothers hpre hbusy, completeBeside_of_next hexec]
  · rw [withFetchWord_of_decode hdecode]
    exact step_of_busy rfl rfl

/-- Settles O36: one command completes in each step, so as many steps as there are commands in flight finish them all. -/
theorem everyAcceptedCommandResponds : Obligations.EveryAcceptedCommandResponds :=
  fun _ hcontract hhost => runs_inFlight rfl hcontract hhost

/-- Settles O38: a response that is there does not make the host wait, and it is taken from the head of the queue. -/
theorem takeResponseTakesTheOldest : Obligations.TakeResponseTakesTheOldest := by
  intro s r more rest hpending hhost
  have hstep : step s = .next (({ s with host := rest } : State).take r more) :=
    (step_of_not_waits hhost (by simp [hpending])).trans (act_takeResponse (s := { s with host := rest }) hpending)
  exact ⟨_, hstep, rfl, rfl, rfl, rfl, rfl, rfl, rfl, rfl⟩

/-- Settles O49: the environment stays, or its `advance` alone is the host's new one. -/
theorem onlyAdvanceIsReconfigured : Obligations.OnlyAdvanceIsReconfigured := by
  intro s t hstep
  rcases step_env hstep with henv | ⟨tr, rest, hhost, henv, hdone⟩
  · rw [henv]
    exact ⟨rfl, rfl, rfl, rfl, rfl, .inl rfl⟩
  · rw [henv]
    exact ⟨rfl, rfl, rfl, rfl, rfl, .inr ⟨rest, hhost, hdone⟩⟩

/-- Settles O50: with nothing to abandon, the reset is `idleAfterReset` alone. -/
theorem resetTouchesNoMemory : Obligations.ResetTouchesNoMemory := by
  intro s rest hhost hquiet
  have hstep : step s = .next ({ s with host := rest } : State).idleAfterReset :=
    (step_of_reset hhost).trans (resetCodec_of_not_running (s := { s with host := rest }) hquiet)
  exact ⟨_, hstep, rfl, rfl, rfl, rfl, rfl, rfl, rfl, rfl, rfl⟩

/-- Settles O51: `abandon` writes plane bytes only, each with its value after some number of columns. -/
theorem resetAbandonsEncode : Obligations.ResetAbandonsEncode := by
  intro s rest f hhost hbusy hcmd hadmits hcontract hp
  have hstep := step_of_reset_running hhost hbusy hcmd hadmits hcontract
  have hg := abandon_encode_g { s with host := rest } f
  have hbytes := read_abandon_encode (s := { s with host := rest }) f hp
  have hframe := fun a => read_abandon_p_of_not_inFootprint { s with host := rest } (.encode f) (a := a)
  obtain ⟨henv, hothers, -, hseen, htaken⟩ := keepsSurroundings_abandon { s with host := rest } (.encode f)
  refine ⟨_, hstep, State.idleAfterReset_phase _, State.idleAfterReset_pending _, htaken,
    (State.idleAfterReset_g _).trans hg, henv, hothers, hseen, ?_⟩
  rw [State.idleAfterReset_p]
  refine ⟨fun b y => ?_, hframe⟩
  obtain ⟨c, hle, hcolumns⟩ := abandonedPlane_eq_packColumns (s := { s with host := rest }) f hp b y
  exact ⟨c, hle, (hbytes b y).trans hcolumns⟩

/-- Settles O52: `abandon` writes image bytes only, each with its old value or its pixel. -/
theorem resetAbandonsDecode : Obligations.ResetAbandonsDecode := by
  intro s rest f hhost hbusy hcmd hadmits hcontracts hg
  have hstep := step_of_reset_running hhost hbusy hcmd hadmits hcontracts.1
  have hp := abandon_decode_p { s with host := rest } f
  have hframe := fun n => read_abandon_g_of_not_inImage { s with host := rest } (.decode f) (n := n)
  obtain ⟨henv, hothers, -, hseen, htaken⟩ := keepsSurroundings_abandon { s with host := rest } (.decode f)
  refine ⟨_, hstep, State.idleAfterReset_phase _, State.idleAfterReset_pending _, htaken,
    (State.idleAfterReset_p _).trans hp, henv, hothers, hseen, ?_⟩
  rw [State.idleAfterReset_g]
  refine ⟨fun x y => ?_, hframe⟩
  have hbyte := read_abandon_decode (s := { s with host := rest }) f hg ⟨x, y, rfl⟩
  rcases abandonedPixel_eq s.p s.g s.draws hadmits hcontracts x y with hold | hpixel
  · exact .inl (hbyte.trans hold)
  · refine .inr fun b => ?_
    rw [← unpackedPixel_getLsbD]
    exact congrArg (·.getLsbD b.val) (hbyte.trans hpixel)

end Sys2Proof.Machine
end

section
/-! Race freedom. Outstanding commands of two codecs do not race; each operation of the state keeps that, as it adds no
outstanding command but one that `act` has checked for races. -/

namespace Sys2Proof.Machine

/-! ### Two codecs that do not race -/

/-- No outstanding command of one codec races with one of the other (R59, R178). -/
def Codec.Apart (e : Env) (c d : Codec) : Prop :=
  ∀ i ∈ c.outstanding, ∀ j ∈ d.outstanding, (e.accesses i).races (e.accesses j) = false

theorem Codec.Apart.symm {e : Env} {c d : Codec} (h : c.Apart e d) : d.Apart e c :=
  fun j hj i hi => (races_comm _ _).trans (h i hi j hj)

/-- A codec with no further outstanding command stays apart from the others. -/
theorem Codec.Apart.mono {e : Env} {c c' d : Codec} (h : c.Apart e d) (hc : ∀ i ∈ c'.outstanding, i ∈ c.outstanding) :
    c'.Apart e d :=
  fun i hi => h i (hc i hi)

theorem Codec.apart_of_outstanding_eq_nil {e : Env} {c : Codec} (d : Codec) (h : c.outstanding = []) : c.Apart e d := by
  simp [Codec.Apart, h]

theorem State.raceFree_iff {s : State} :
    s.RaceFree ↔ (∀ d ∈ s.others, s.codec.Apart s.env d) ∧ s.others.Pairwise (Codec.Apart s.env) :=
  List.pairwise_cons

/-- Race freedom does not depend on the order of the codecs. -/
theorem State.raceFree_of_perm {s t : State} (hs : s.RaceFree) (he : t.env = s.env) (hc : s.codecs.Perm t.codecs) :
    t.RaceFree := by
  have hpair : t.codecs.Pairwise (Codec.Apart s.env) := (hc.pairwise_iff Codec.Apart.symm).1 hs
  rwa [← he] at hpair

/-! ### What is outstanding after an operation -/

/-- Acceptance adds the accepted command, and nothing else. -/
theorem outstanding_accept {s : State} {i j : Instr} (h : j ∈ (s.accept i).codec.outstanding) :
    j = i ∨ j ∈ s.codec.outstanding := by
  rw [outstanding_of_busy (State.accept_phase s i), State.accept_cmd, State.accept_pending] at h
  refine (List.mem_cons.1 h).imp_right fun hj => ?_
  cases hphase : s.codec.phase with
  | idle => rwa [outstanding_of_idle hphase]
  | busy => rw [outstanding_of_busy hphase]; exact List.mem_cons_of_mem _ hj

/-- A taken response adds no outstanding command. -/
theorem outstanding_take {s : State} {r : Response} {rest : List Response} {j : Instr} (hp : s.codec.pending = r :: rest)
    (h : j ∈ (s.take r rest).codec.outstanding) : j ∈ s.codec.outstanding := by
  cases hphase : s.codec.phase with
  | idle =>
    rw [outstanding_of_idle ((State.take_phase s r rest).trans hphase), State.take_pending] at h
    rw [outstanding_of_idle hphase, hp]
    exact List.mem_cons_of_mem _ h
  | busy =>
    rw [outstanding_of_busy ((State.take_phase s r rest).trans hphase), State.take_cmd, State.take_pending] at h
    rw [outstanding_of_busy hphase, hp]
    rcases List.mem_cons.1 h with rfl | hj
    · exact List.mem_cons_self ..
    · exact List.mem_cons_of_mem _ (List.mem_cons_of_mem _ hj)

/-- A codec just reset has nothing outstanding (R32). -/
theorem outstanding_idleAfterReset (s : State) : s.idleAfterReset.codec.outstanding = [] :=
  outstanding_eq_nil.2 ⟨State.idleAfterReset_phase s, State.idleAfterReset_pending s⟩

/-- A codec whose command finishes has the same commands outstanding: this one now as a response not taken (R178). -/
theorem Codec.Finishes.outstanding {c d : Codec} (h : c.Finishes d) (hc : c.phase = .busy) (hd : d.phase = .idle)
    {j : Instr} (hj : j ∈ d.outstanding) : j ∈ c.outstanding := by
  simp only [Codec.Finishes, hc] at h
  obtain ⟨-, -, st, hpending⟩ := h
  rw [outstanding_of_idle hd, hpending] at hj
  rw [outstanding_of_busy hc]
  simpa [or_comm, eq_comm] using hj

/-! ### The operations keep race freedom -/

section Operations
variable {s t : State}

/-- Where the codec in turn alone differs, only its commands have to be looked at. -/
theorem State.RaceFree.of_codec (hs : s.RaceFree) (he : t.env = s.env) (ho : t.others = s.others)
    (hc : ∀ d ∈ s.others, s.codec.Apart s.env d → t.codec.Apart s.env d) : t.RaceFree := by
  obtain ⟨hturn, hothers⟩ := State.raceFree_iff.1 hs
  rw [State.raceFree_iff, he, ho]
  exact ⟨fun d hd => hc d hd (hturn d hd), hothers⟩

/-- A completion, of whichever codec, keeps race freedom. -/
theorem State.RaceFree.completesOne (hs : s.RaceFree) (h : CompletesOne s t) : t.RaceFree := by
  obtain ⟨he, -, pre, post, c, d, hsc, htc, hc, hd, hfin⟩ := h
  have hmono : ∀ x, c.Apart s.env x → d.Apart s.env x := fun x hx => hx.mono fun j hj => hfin.outstanding hc hd hj
  rw [State.RaceFree, hsc] at hs
  rw [State.RaceFree, he, htc]
  obtain ⟨hpre, hrest, hcross⟩ := List.pairwise_append.1 hs
  obtain ⟨hcpost, hpost⟩ := List.pairwise_cons.1 hrest
  refine List.pairwise_append.2 ⟨hpre, List.pairwise_cons.2 ⟨fun x hx => hmono x (hcpost x hx), hpost⟩, fun x hx => ?_⟩
  obtain ⟨hxc, hxpost⟩ := List.forall_mem_cons.1 (hcross x hx)
  exact List.forall_mem_cons.2 ⟨(hmono x (Codec.Apart.symm hxc)).symm, hxpost⟩

theorem inFlight_ne_zero {c : Codec} (hc : c ∈ s.codecs) (hb : c.phase = .busy) : s.inFlight ≠ 0 := fun hn => by
  have hidle := inFlight_eq_zero.1 hn c hc
  rw [hb] at hidle
  cases hidle

theorem State.RaceFree.awaitsTo (hs : s.RaceFree) (h : AwaitsTo s t) : t.RaceFree := by
  have hone : s.inFlight ≠ 0 → t.RaceFree := fun hn => hs.completesOne (h.completesOne hn)
  cases h with
  | nothing _ => exact hs
  | complete hb _ => exact hone (inFlight_ne_zero (List.mem_cons_self ..) hb)
  | @beside pre c post u _ ho _ hb _ => exact hone (inFlight_ne_zero (c := c) (by simp [State.codecs, ho]) hb)

theorem State.RaceFree.resetCodec (hs : s.RaceFree) (h : s.resetCodec = .next t) : t.RaceFree := by
  rcases resetCodec_next h with ⟨rfl, -⟩ | ⟨rfl, -⟩
  · exact hs.of_codec rfl rfl fun d _ _ => Codec.apart_of_outstanding_eq_nil d (outstanding_idleAfterReset s)
  · refine hs.of_codec ?_ ?_ fun d _ _ => Codec.apart_of_outstanding_eq_nil d (outstanding_idleAfterReset _)
    · rw [State.idleAfterReset_env, State.abandon_env]
    · rw [State.idleAfterReset_others, State.abandon_others]

theorem State.codecs_perm_turn (s : State) : s.codecs.Perm s.turn.codecs := by
  unfold State.turn
  split
  · exact .refl _
  · next c cs hcs =>
    rw [State.codecs, hcs]
    exact (List.perm_append_singleton s.codec (c :: cs)).symm

/-- With nothing outstanding no two commands race, under whichever environment. -/
theorem State.raceFree_of_betweenCommands (hb : s.betweenCommands = true) (hc : t.codecs = s.codecs) : t.RaceFree := by
  have hdone := betweenCommands_iff.1 hb
  rw [State.RaceFree, hc]
  exact List.pairwise_of_forall_mem_list fun c hmem d _ => Codec.apart_of_outstanding_eq_nil d (hdone c hmem)

theorem State.RaceFree.act {a : HostAction} (hs : s.RaceFree) (h : s.act a = .next t) : t.RaceFree := by
  obtain ⟨-, hacts⟩ := act_next h
  cases hacts with
  | @issue w i _ hr =>
    refine hs.of_codec rfl rfl fun d hd hapart j hj k hk => ?_
    rcases outstanding_accept hj with rfl | hj
    · exact racesWith_eq_false.1 hr d hd k hk
    · exact hapart j hj k hk
  | nothing _ => exact hs
  | take hp => exact hs.of_codec rfl rfl fun d _ hapart => hapart.mono fun j hj => outstanding_take hp hj
  | reset hr => exact hs.resetCodec hr
  | readPlanar _ | writePlanar _ | readPixel _ | writePixel _ => exact hs.of_codec rfl rfl fun _ _ hapart => hapart
  | reconfigure hb => exact State.raceFree_of_betweenCommands hb rfl
  | turn => exact State.raceFree_of_perm hs (State.turn_env s) (State.codecs_perm_turn s)

end Operations

/-- Settles O55: a completion leaves the same commands outstanding, and of the host's actions an issue alone adds one, which
`act` has checked for races. -/
theorem everyStepKeepsRaceFreedom : Obligations.EveryStepKeepsRaceFreedom := by
  intro s t hs h
  rcases step_next h with hawait | ⟨a, rest, -, -, hact⟩
  · exact hs.awaitsTo hawait
  · have htaken : ({ s with host := rest } : State).RaceFree := hs
    exact htaken.act hact

end Sys2Proof.Machine
end

section
/-! What one command does to the memories. It changes only the bytes that `Env.accesses` says it writes, and gives them values
that depend only on the bytes it reads; so two commands whose accesses do not race commute. -/

namespace Sys2Proof.Machine

@[simp] theorem Instr.fields_decode (f : Fields) : (Instr.decode f).fields = f := rfl

@[simp] theorem Instr.fields_encode (f : Fields) : (Instr.encode f).fields = f := rfl

/-! ### When a command responds and when it is refused -/

/-- With good dimensions a command that is not admitted is out of range (R141, R144). -/
theorem check_eq_outOfRange {e : Env} {f : Fields} (hw : f.width = 8) (hh : f.height = 8) (h : ¬ e.Admits f) :
    e.check f = some .outOfRange := by
  cases hcheck : e.check f with
  | none => exact absurd (check_eq_none_iff.1 hcheck) h
  | some k =>
    rcases check_eq_some hcheck with ⟨-, hdims⟩ | ⟨rfl, -⟩
    · exact absurd ⟨hw, hh⟩ hdims
    · rfl

/-- An admitted command whose image is in the store completes with `OK` (R50, R129). -/
theorem exec_of_admits {i : Instr} {s : State} (ha : s.env.Admits i.fields) (hi : s.env.imageInStore i.fields) :
    ∃ t, exec i s = .next t ∧ Responds i s t .ok ∧ KeepsSurroundings s t := by
  cases i with
  | decode f => exact ⟨_, execDecode_of_admits ha hi, responds_withG .., keepsSurroundings_withG ..⟩
  | encode f => exact ⟨_, execEncode_of_admits ha hi, responds_withP .., keepsSurroundings_withP ..⟩

/-- An admitted command whose image leaves the store is refused (U5; log 10). -/
theorem exec_of_not_imageInStore {i : Instr} {s : State} (ha : s.env.Admits i.fields)
    (hi : ¬ s.env.imageInStore i.fields) : exec i s = .refused .accessorContract := by
  have hcheck := check_eq_none_iff.2 ha
  cases i with
  | decode f =>
    rw [Instr.fields_decode] at hcheck hi
    simp [exec, execDecode, hcheck, hi]
  | encode f =>
    rw [Instr.fields_encode] at hcheck hi
    simp [exec, execEncode, hcheck, hi]

/-! ### What a command leaves in the memories -/

section Memories
variable {f : Fields} {i : Instr} {s t : State}

theorem exec_decode_memories (ha : s.env.Admits f) (h : exec (.decode f) s = .next t) :
    t.p = s.p ∧ t.g = s.g.writeAll (s.env.unpackedCells f s.p s.draws) := by
  rcases execDecode_next h with ⟨k, hk, -⟩ | ⟨-, -, rfl⟩
  · simp [check_eq_none_iff.2 ha] at hk
  · simp

theorem exec_encode_memories (ha : s.env.Admits f) (h : exec (.encode f) s = .next t) :
    t.p = s.p.writeAll (s.env.packedCells f s.g) ∧ t.g = s.g := by
  rcases execEncode_next h with ⟨k, hk, -⟩ | ⟨-, -, rfl⟩
  · simp [check_eq_none_iff.2 ha] at hk
  · simp

/-- A command that fails its checks leaves both memories (R145, R146). -/
theorem exec_memories_of_not_admits (ha : ¬ s.env.Admits i.fields) (h : exec i s = .next t) : t.p = s.p ∧ t.g = s.g := by
  rcases exec_next h with ⟨k, -, rfl⟩ | ⟨ha', -⟩
  · exact ⟨State.raise_p .., State.raise_g ..⟩
  · exact absurd ha' ha

end Memories

/-- What a command does to the memories, and its status, depend only on the memories, the environment and the draw. -/
theorem exec_of_same_memories {i : Instr} {s s' u : State} (h : exec i s = .next u) (hp : s'.p = s.p) (hg : s'.g = s.g)
    (he : s'.env = s.env) (hd : s'.draws = s.draws) :
    ∃ u', exec i s' = .next u' ∧ u'.p = u.p ∧ u'.g = u.g ∧ ∃ st, Responds i s u st ∧ Responds i s' u' st := by
  rcases exec_next h with ⟨k, hk, rfl⟩ | ⟨ha, hi, -⟩
  · rw [← he] at hk
    exact ⟨_, exec_of_check hk, hp, hg, k.status, responds_raise .., responds_raise ..⟩
  · obtain ⟨u₀, hu₀, hresp, -⟩ := exec_of_admits ha hi
    obtain rfl := Host.Outcome.next.inj (h.symm.trans hu₀)
    have ha' : s'.env.Admits i.fields := he.symm ▸ ha
    obtain ⟨u', hu', hresp', -⟩ := exec_of_admits ha' (he.symm ▸ hi)
    refine ⟨u', hu', ?_⟩
    cases i with
    | decode f =>
      rw [Instr.fields_decode] at ha ha'
      obtain ⟨hup, hug⟩ := exec_decode_memories ha h
      obtain ⟨hup', hug'⟩ := exec_decode_memories ha' hu'
      rw [hup, hug, hup', hug', hp, hg, he, hd]
      exact ⟨rfl, rfl, .ok, hresp, hresp'⟩
    | encode f =>
      rw [Instr.fields_encode] at ha ha'
      obtain ⟨hup, hug⟩ := exec_encode_memories ha h
      obtain ⟨hup', hug'⟩ := exec_encode_memories ha' hu'
      rw [hup, hug, hup', hug', hp, hg, he]
      exact ⟨rfl, rfl, .ok, hresp, hresp'⟩

/-! ### Reads and writes of an agent -/

/-- Both memories are in canonical form. -/
def State.Canonical (s : State) : Prop := s.p.wf ∧ s.g.wf

/-- From one state to the other no byte changes but those the agent writes. -/
def AccessSet.WritesOnly (A : AccessSet) (s t : State) : Prop :=
  (∀ a, a ∉ A.pWrites → t.p.read a = s.p.read a) ∧ ∀ n, n ∉ A.gWrites → t.g.read n = s.g.read n

/-- The agent reads the same bytes in both states. -/
def AccessSet.ReadsSame (A : AccessSet) (s t : State) : Prop :=
  (∀ a ∈ A.pReads, t.p.read a = s.p.read a) ∧ ∀ n ∈ A.gReads, t.g.read n = s.g.read n

/-- The bytes the agent writes are the same in both states. -/
def AccessSet.WrittenSame (A : AccessSet) (s t : State) : Prop :=
  (∀ a ∈ A.pWrites, t.p.read a = s.p.read a) ∧ ∀ n ∈ A.gWrites, t.g.read n = s.g.read n

theorem writtenSame_empty (s t : State) : AccessSet.empty.WrittenSame s t := by
  simp [AccessSet.WrittenSame, AccessSet.empty]

theorem AccessSet.WrittenSame.trans {A : AccessSet} {s t u : State} (h : A.WrittenSame s t) (h' : A.WrittenSame t u) :
    A.WrittenSame s u :=
  ⟨fun a ha => (h'.1 a ha).trans (h.1 a ha), fun n hn => (h'.2 n hn).trans (h.2 n hn)⟩

theorem AccessSet.WrittenSame.symm {A : AccessSet} {s t : State} (h : A.WrittenSame s t) : A.WrittenSame t s :=
  ⟨fun a ha => (h.1 a ha).symm, fun n hn => (h.2 n hn).symm⟩

/-- Agents that do not race do not access what the other writes (R59). -/
theorem not_mem_of_not_races {A B : AccessSet} (h : A.races B = false) :
    (∀ a ∈ B.pWrites, a ∉ A.pReads ∧ a ∉ A.pWrites) ∧ ∀ n ∈ B.gWrites, n ∉ A.gReads ∧ n ∉ A.gWrites := by
  simp only [AccessSet.races, Bool.or_eq_false_iff, meets_eq_false, List.mem_append, not_or] at h
  obtain ⟨⟨⟨-, hp⟩, -⟩, hg⟩ := h
  exact ⟨hp, hg⟩

/-- What another agent writes that does not race leaves the bytes this one reads. -/
theorem AccessSet.WritesOnly.readsSame {A B : AccessSet} {s t : State} (h : B.WritesOnly s t)
    (hr : A.races B = false) : A.ReadsSame s t := by
  obtain ⟨hp, hg⟩ := not_mem_of_not_races hr
  exact ⟨fun a ha => h.1 a fun hb => (hp a hb).1 ha, fun n hn => h.2 n fun hb => (hg n hb).1 hn⟩

/-- What another agent writes that does not race leaves the bytes this one writes. -/
theorem AccessSet.WritesOnly.writtenSame {A B : AccessSet} {s t : State} (h : B.WritesOnly s t)
    (hr : A.races B = false) : A.WrittenSame s t := by
  obtain ⟨hp, hg⟩ := not_mem_of_not_races hr
  exact ⟨fun a ha => h.1 a fun hb => (hp a hb).2 ha, fun n hn => h.2 n fun hb => (hg n hb).2 hn⟩

/-! ### Reads and writes of a command -/

theorem unpackedPixel_congr {f : Fields} {p p' : Memory} (h : ∀ a, InFootprint f a → p'.read a = p.read a)
    (x y : Lane) : unpackedPixel p' f x y = unpackedPixel p f x y := by
  simp only [unpackedPixel, h _ (planarAddr_inFootprint f _ y)]

theorem packedByte_congr {e : Env} {f : Fields} {g g' : Memory} (h : ∀ n, e.InImage f n → g'.read n = g.read n)
    (b y : Lane) : e.packedByte f g' b y = e.packedByte f g b y := by
  simp only [Env.packedByte, h _ ⟨_, y, rfl⟩]

/-- Under the contracts an admitted DECODE leaves its pixels in the image, free values nowhere (R100). -/
theorem read_unpackedCells_of_contracts {e : Env} {f : Fields} {g : Memory} (p : Memory) (n : Nat) (ha : e.Admits f)
    (hc : e.Contracts f) (hg : g.wf) (x y : Lane) :
    (g.writeAll (e.unpackedCells f p n)).read (e.pix f x y) = unpackedPixel p f x y :=
  (read_unpackedCells hg x y).trans (unpackedByte_of_count (image_count ha hc x y))

theorem exec_canonical {i : Instr} {s t : State} (hs : s.Canonical) (h : exec i s = .next t) : t.Canonical := by
  obtain ⟨hp, hg⟩ := hs
  unfold State.Canonical
  by_cases ha : s.env.Admits i.fields
  · cases i with
    | decode f =>
      rw [Instr.fields_decode] at ha
      obtain ⟨htp, htg⟩ := exec_decode_memories ha h
      rw [htp, htg]
      exact ⟨hp, Memory.writeAll_wf _ hg⟩
    | encode f =>
      rw [Instr.fields_encode] at ha
      obtain ⟨htp, htg⟩ := exec_encode_memories ha h
      rw [htp, htg]
      exact ⟨Memory.writeAll_wf _ hp, hg⟩
  · obtain ⟨htp, htg⟩ := exec_memories_of_not_admits ha h
    rw [htp, htg]
    exact ⟨hp, hg⟩

/-- A command changes only bytes it writes: DECODE its image, ENCODE its footprint, none if it fails its checks (R43, R67,
R145). -/
theorem exec_writesOnly {i : Instr} {s t : State} (h : exec i s = .next t) : (s.env.accesses i).WritesOnly s t := by
  unfold AccessSet.WritesOnly
  by_cases ha : s.env.Admits i.fields
  · cases i with
    | decode f =>
      rw [Instr.fields_decode] at ha
      obtain ⟨htp, htg⟩ := exec_decode_memories ha h
      rw [accesses_decode ha, htp, htg]
      exact ⟨fun _ _ => rfl, fun n hn => read_unpackedCells_of_not_inImage _ _ _ fun hin => hn (mem_image.2 hin)⟩
    | encode f =>
      rw [Instr.fields_encode] at ha
      obtain ⟨htp, htg⟩ := exec_encode_memories ha h
      rw [accesses_encode ha, htp, htg]
      exact ⟨fun a hn => read_packedCells_of_not_inFootprint _ _ fun hin => hn (mem_footprint.2 hin), fun _ _ => rfl⟩
  · obtain ⟨htp, htg⟩ := exec_memories_of_not_admits ha h
    rw [htp, htg]
    exact ⟨fun _ _ => rfl, fun _ _ => rfl⟩

/-- What a command writes depends only on what it reads (R102, R113). -/
theorem exec_writtenSame {i : Instr} {s s' t t' : State} (hs : s.Canonical) (hs' : s'.Canonical)
    (he : s'.env = s.env) (hc : s.env.Contracts i.fields) (hsame : (s.env.accesses i).ReadsSame s s')
    (h : exec i s = .next t) (h' : exec i s' = .next t') : (s.env.accesses i).WrittenSame t t' := by
  by_cases ha : s.env.Admits i.fields
  · have ha' : s'.env.Admits i.fields := he.symm ▸ ha
    cases i with
    | decode f =>
      rw [Instr.fields_decode] at ha ha' hc
      obtain ⟨-, htg⟩ := exec_decode_memories ha h
      obtain ⟨-, htg'⟩ := exec_decode_memories ha' h'
      rw [accesses_decode ha] at hsame ⊢
      refine ⟨fun a hin => absurd hin List.not_mem_nil, fun n hn => ?_⟩
      obtain ⟨x, y, rfl⟩ := mem_image.1 hn
      rw [htg, htg', he, read_unpackedCells_of_contracts _ _ ha hc hs.2, read_unpackedCells_of_contracts _ _ ha hc hs'.2]
      exact unpackedPixel_congr (fun a hin => hsame.1 a (mem_footprint.2 hin)) x y
    | encode f =>
      rw [Instr.fields_encode] at ha ha'
      obtain ⟨htp, -⟩ := exec_encode_memories ha h
      obtain ⟨htp', -⟩ := exec_encode_memories ha' h'
      rw [accesses_encode ha] at hsame ⊢
      refine ⟨fun a hin => ?_, fun n hn => absurd hn List.not_mem_nil⟩
      obtain ⟨b, y, rfl⟩ := exists_planarAddr (mem_footprint.1 hin)
      rw [htp, htp', he, read_packedCells hs.1, read_packedCells hs'.1]
      exact packedByte_congr (fun n hn => hsame.2 n (mem_image.2 hn)) b y
  · rw [accesses_of_not_admits ha]
    exact writtenSame_empty t t'

/-! ### Two commands in either order -/

section Commute
variable {i j : Instr} {s t tj u ui : State} (hs : s.Canonical) (hci : s.env.Contracts i.fields)
  (hraces : (s.env.accesses i).races (s.env.accesses j) = false)
  (ht : exec i s = .next t) (htj : exec j t = .next tj) (hu : exec j s = .next u) (hui : exec i u = .next ui)
include hs hci hraces ht htj hu hui

/-- What one of two commands that do not race writes is the same in either order: the one that runs after it leaves its
bytes, and the one that runs before it leaves what it reads. -/
theorem writtenSame_of_not_races : (s.env.accesses i).WrittenSame tj ui := by
  obtain ⟨⟨hte, -⟩, -⟩ := exec_surroundings ht
  obtain ⟨⟨hue, -⟩, -⟩ := exec_surroundings hu
  have hafter : (s.env.accesses i).WrittenSame t tj := (hte ▸ exec_writesOnly htj).writtenSame hraces
  have hbefore : (s.env.accesses i).ReadsSame s u := (exec_writesOnly hu).readsSame hraces
  exact hafter.symm.trans (exec_writtenSame hs (exec_canonical hs hu) hue hci hbefore ht hui)

/-- Two commands that do not race end in the same bytes in either order: those of the one, those of the other, and those
that neither writes. -/
theorem sameBytes_of_not_races (hcj : s.env.Contracts j.fields) : SameBytes tj.p ui.p ∧ SameBytes tj.g ui.g := by
  obtain ⟨⟨hte, -⟩, -⟩ := exec_surroundings ht
  obtain ⟨⟨hue, -⟩, -⟩ := exec_surroundings hu
  obtain ⟨hpi, hgi⟩ := writtenSame_of_not_races hs hci hraces ht htj hu hui
  obtain ⟨hpj, hgj⟩ := writtenSame_of_not_races hs hcj ((races_comm _ _).trans hraces) hu hui ht htj
  obtain ⟨hpt, hgt⟩ := exec_writesOnly ht
  obtain ⟨hpu, hgu⟩ := exec_writesOnly hu
  obtain ⟨hptj, hgtj⟩ := exec_writesOnly htj
  obtain ⟨hpui, hgui⟩ := exec_writesOnly hui
  rw [hte] at hptj hgtj
  rw [hue] at hpui hgui
  constructor
  · intro a
    by_cases hi : a ∈ (s.env.accesses i).pWrites
    · exact hpi a hi
    by_cases hj : a ∈ (s.env.accesses j).pWrites
    · exact (hpj a hj).symm
    rw [hpui a hi, hpu a hj, hptj a hj, hpt a hi]
  · intro n
    by_cases hi : n ∈ (s.env.accesses i).gWrites
    · exact hgi n hi
    by_cases hj : n ∈ (s.env.accesses j).gWrites
    · exact (hgj n hj).symm
    rw [hgui n hi, hgu n hj, hgtj n hj, hgt n hi]

end Commute

end Sys2Proof.Machine
end

section
/-! What the host may not do: issue a command that races, or access a byte that does not exist. -/

namespace Sys2Proof.Machine

/-! ### Issuing beside outstanding commands -/

/-- An `IDLE` codec does not make a host wait that issues. -/
theorem step_of_issue {s : State} {w : Nat} {rest : List HostAction} (hidle : s.codec.phase = .idle)
    (hh : s.host = .issue w :: rest) : step s = ({ s with host := rest } : State).act (.issue w) :=
  step_of_not_waits hh (by simp [hidle])

/-- A word whose command races with another codec's is refused (log 12). -/
theorem act_issue_of_races {s : State} {w : Nat} {i : Instr} (hd : decode s.env.widths w = .ok i)
    (hr : racesWith s.env (s.env.accesses i) s.others = true) : s.act (.issue w) = .refused .dataRace := by
  simp [State.act, HostAction.accesses, racesWith_empty, State.present, hd, hr]

/-- Two admitted commands that overlap neither where one is an ENCODE nor where one is a DECODE do not race (R60 to R62). -/
theorem not_races_of_apart {e : Env} {i j : Instr} (hi : e.Admits i.fields) (hj : e.Admits j.fields)
    (hp : i.op = 1 ∨ j.op = 1 →
      i.fields.tileAddr + 64 ≤ j.fields.tileAddr ∨ j.fields.tileAddr + 64 ≤ i.fields.tileAddr)
    (hg : i.op = 0 ∨ j.op = 0 → ∀ n, e.InImage i.fields n → ¬ e.InImage j.fields n) :
    ¬ (e.accesses i).races (e.accesses j) = true := by
  rw [races_iff hi hj]
  rintro (⟨hop, hlt, hlt'⟩ | ⟨hop, n, hin, hjn⟩)
  · have := hp hop
    omega
  · exact hg hop n hin hjn

/-! ### Accesses outside the memories -/

section Outside
variable {s : State}

/-- No footprint reaches an address outside `P`, so a host access there races with nothing. -/
theorem racesWith_planar_outside {n : Nat} (hn : s.env.pbufLen ≤ n) (v : Byte) (codecs : List Codec) :
    racesWith s.env (HostAction.writePlanar n v).accesses codecs = false ∧
      racesWith s.env (HostAction.readPlanar n).accesses codecs = false := by
  have houtside : ∀ {j : Instr}, s.env.Admits j.fields → ¬ InFootprint j.fields n := fun hj hin =>
    Nat.not_lt.2 hn (lt_pbufLen_of_inFootprint hj hin)
  exact ⟨racesWith_eq_false_of_admits fun _ _ _ _ hj hr => houtside hj ((races_writePlanar hj n v).1 hr),
    racesWith_eq_false_of_admits fun _ _ _ _ hj hr => houtside hj ((races_readPlanar hj n).1 hr).2⟩

/-- Under the contract of `address` no image reaches an index outside `G`, so a host access there races with nothing. -/
theorem racesWith_pixel_outside {n : Nat} (hc : s.env.AddressContract) (hn : s.env.gridLen ≤ n) (v : Byte)
    (codecs : List Codec) : racesWith s.env (HostAction.writePixel n v).accesses codecs = false ∧
      racesWith s.env (HostAction.readPixel n).accesses codecs = false := by
  have houtside : ∀ {j : Instr}, s.env.Admits j.fields → ¬ s.env.InImage j.fields n := fun hj hin =>
    Nat.not_lt.2 hn (lt_gridLen_of_inImage (imageInStore_of_contract hj hc) hin)
  exact ⟨racesWith_eq_false_of_admits fun _ _ _ _ hj hr => houtside hj ((races_writePixel hj n v).1 hr),
    racesWith_eq_false_of_admits fun _ _ _ _ hj hr => houtside hj ((races_readPixel hj n).1 hr).2⟩

/-- A host access outside `P` stops the machine (R41; log 16). -/
theorem act_planar_outside {n : Nat} (hn : s.env.pbufLen ≤ n) (v : Byte) :
    s.act (.writePlanar n v) = .fault .noPlanarByte ∧ s.act (.readPlanar n) = .fault .noPlanarByte := by
  obtain ⟨hwrite, hread⟩ := racesWith_planar_outside hn v s.codecs
  exact ⟨by simp [State.act, hwrite, hn], by simp [State.act, hread, hn]⟩

/-- A host access outside `G` stops the machine (R42; log 16). -/
theorem act_pixel_outside {n : Nat} (hc : s.env.AddressContract) (hn : s.env.gridLen ≤ n) (v : Byte) :
    s.act (.writePixel n v) = .fault .noPixelByte ∧ s.act (.readPixel n) = .fault .noPixelByte := by
  obtain ⟨hwrite, hread⟩ := racesWith_pixel_outside hc hn v s.codecs
  exact ⟨by simp [State.act, hwrite, hn], by simp [State.act, hread, hn]⟩

end Outside

end Sys2Proof.Machine
end

section
/-! Which bytes the access sequences of R101 and R111 touch, and how often. The trace of each sequence is the list of the
accesses of its 64 pixels; counting in it is counting in the image, and in the plane bytes the loops visit. -/

namespace Sys2Proof.Machine

/-! ### The traces as lists of accesses -/

/-- The accesses of one innermost step of R101, in order. -/
def unpackBitAccesses (f : Fields) (y b : Lane) : List Access := [.pRead (planarAddr f b y)]

/-- The accesses of one pixel of R101, in order. -/
def unpackPixelAccesses (e : Env) (f : Fields) (c : Lane × Lane) : List Access :=
  lanes.flatMap (unpackBitAccesses f c.2) ++ [.gWrite (e.pix f c.1 c.2)]

/-- The accesses of one innermost step of R111, in order. -/
def packBitAccesses (f : Fields) (y b : Lane) : List Access := [.pRead (planarAddr f b y), .pWrite (planarAddr f b y)]

/-- The accesses of one pixel of R111, in order. -/
def packPixelAccesses (e : Env) (f : Fields) (c : Lane × Lane) : List Access :=
  .gRead (e.pix f c.1 c.2) :: lanes.flatMap (packBitAccesses f c.2)

/-- Where each step of a loop adds its accesses to the trace, the loop adds those of all of them. -/
theorem foldl_trace {α : Type} {body : AccessRun → α → AccessRun} {accesses : α → List Access}
    (h : ∀ r a, (body r a).trace = (accesses a).reverse ++ r.trace) (l : List α) (r : AccessRun) :
    (l.foldl body r).trace = (l.flatMap accesses).reverse ++ r.trace := by
  induction l generalizing r with
  | nil => rfl
  | cons a l ih => simp [ih, h]

theorem unpackPixel_trace (e : Env) (f : Fields) (r : AccessRun) (c : Lane × Lane) :
    (r.unpackPixel e f c).trace = (unpackPixelAccesses e f c).reverse ++ r.trace := by
  obtain ⟨-, -, htrace⟩ := unpackPixel_spec e f c r
  rw [htrace, List.map_eq_flatMap, unpackPixelAccesses, List.reverse_append]
  rfl

theorem unpack_trace (e : Env) (f : Fields) (s : State) :
    (s.accessRun.unpack e f).trace = (tileCoords.flatMap (unpackPixelAccesses e f)).reverse := by
  rw [AccessRun.unpack, foldl_trace (unpackPixel_trace e f), State.accessRun_trace, List.append_nil]

theorem packPixel_trace (e : Env) (f : Fields) (x : Lane) (r : AccessRun) (y : Lane) :
    (r.packPixel e f x y).trace = (packPixelAccesses e f (x, y)).reverse ++ r.trace := by
  have hbits := foldl_trace (accesses := packBitAccesses f y) (fun r b => packBit_trace f x y b r) lanes
    (r.gRead (e.pix f x y))
  simp [AccessRun.packPixel, hbits, packPixelAccesses]

theorem packColumn_trace (e : Env) (f : Fields) (r : AccessRun) (x : Lane) :
    (r.packColumn e f x).trace = (lanes.flatMap fun y => packPixelAccesses e f (x, y)).reverse ++ r.trace :=
  foldl_trace (packPixel_trace e f x) lanes _

theorem pack_trace (e : Env) (f : Fields) (s : State) :
    (s.accessRun.pack e f).trace = (tileCoords.flatMap (packPixelAccesses e f)).reverse := by
  rw [AccessRun.pack, AccessRun.packColumns, foldl_trace (packColumn_trace e f), State.accessRun_trace, List.append_nil,
    tileCoords, List.flatMap_assoc]
  simp only [List.flatMap_map]

/-! ### The plane bytes the loops visit -/

/-- The plane bytes in the order in which the loops of R101 and R111 come to them. -/
def planarVisits (f : Fields) : List Nat := tileCoords.flatMap fun c => lanes.flatMap fun b => [planarAddr f b c.2]

theorem planarAddr_inj {f : Fields} {b y b' y' : Lane} :
    planarAddr f b y = planarAddr f b' y' ↔ b = b' ∧ y = y' :=
  ⟨planarAddr_injective, by rintro ⟨rfl, rfl⟩; rfl⟩

theorem mem_planarVisits {f : Fields} {a : Nat} : a ∈ planarVisits f ↔ InFootprint f a := by
  rw [inFootprint_iff]
  simp only [planarVisits, List.mem_flatMap, List.mem_singleton, mem_tileCoords, mem_lanes, true_and]
  exact ⟨fun ⟨c, b, h⟩ => ⟨b, c.2, h.symm⟩, fun ⟨b, y, h⟩ => ⟨(0, y), b, h.symm⟩⟩

/-- Each plane and row comes up once in each of the eight columns. -/
theorem sum_visits (b y : Lane) :
    (tileCoords.map fun c => (lanes.map fun b' => if b' = b ∧ c.2 = y then 1 else 0).sum).sum = 8 := by
  revert b y; decide

/-- Each footprint byte is visited 8 times. -/
theorem count_planarVisits {f : Fields} {a : Nat} (h : InFootprint f a) : (planarVisits f).count a = 8 := by
  obtain ⟨b, y, rfl⟩ := exists_planarAddr h
  simpa [planarVisits, List.count_flatMap, Function.comp_def, List.count_singleton, planarAddr_inj] using sum_visits b y

/-! ### Counting accesses -/

/-- Lists built alike, piece by piece, have the same count where the pieces have. -/
theorem count_flatMap_congr {α β γ : Type} [BEq β] [BEq γ] {F : α → List β} {G : α → List γ} {v : β} {w : γ}
    (h : ∀ a, (F a).count v = (G a).count w) (l : List α) : (l.flatMap F).count v = (l.flatMap G).count w := by
  simp [List.count_flatMap, Function.comp_def, h]

theorem image_eq_flatMap (e : Env) (f : Fields) : e.image f = tileCoords.flatMap fun c => [e.pix f c.1 c.2] :=
  List.map_eq_flatMap

section Counts
variable (e : Env) (f : Fields) (s : State)

/-- DECODE reads each plane byte as often as its loops visit it. -/
theorem count_unpack_pRead (a : Nat) :
    (s.accessRun.unpack e f).trace.count (.pRead a) = (planarVisits f).count a := by
  rw [unpack_trace, List.count_reverse]
  refine count_flatMap_congr (fun c => ?_) _
  rw [unpackPixelAccesses, List.count_append, List.count_singleton, if_neg (by simp), Nat.add_zero]
  exact count_flatMap_congr (fun b => by simp [unpackBitAccesses, List.count_singleton]) _

/-- DECODE writes an index once for each pixel that has it. -/
theorem count_unpack_gWrite (n : Nat) : (s.accessRun.unpack e f).trace.count (.gWrite n) = (e.image f).count n := by
  rw [unpack_trace, List.count_reverse, image_eq_flatMap]
  refine count_flatMap_congr (fun c => ?_) _
  have hbits : Access.gWrite n ∉ lanes.flatMap (unpackBitAccesses f c.2) := by simp [unpackBitAccesses]
  rw [unpackPixelAccesses, List.count_append, List.count_eq_zero_of_not_mem hbits]
  simp [List.count_singleton]

theorem pWrite_not_mem_unpack (a : Nat) : Access.pWrite a ∉ (s.accessRun.unpack e f).trace := by
  simp [unpack_trace, unpackPixelAccesses, unpackBitAccesses]

theorem gRead_not_mem_unpack (n : Nat) : Access.gRead n ∉ (s.accessRun.unpack e f).trace := by
  simp [unpack_trace, unpackPixelAccesses, unpackBitAccesses]

/-- ENCODE reads each plane byte as often as its loops visit it. -/
theorem count_pack_pRead (a : Nat) : (s.accessRun.pack e f).trace.count (.pRead a) = (planarVisits f).count a := by
  rw [pack_trace, List.count_reverse]
  refine count_flatMap_congr (fun c => ?_) _
  rw [packPixelAccesses, List.count_cons_of_ne (by simp)]
  exact count_flatMap_congr (fun b => by simp [packBitAccesses, List.count_cons]) _

/-- ENCODE writes each plane byte as often as its loops visit it. -/
theorem count_pack_pWrite (a : Nat) : (s.accessRun.pack e f).trace.count (.pWrite a) = (planarVisits f).count a := by
  rw [pack_trace, List.count_reverse]
  refine count_flatMap_congr (fun c => ?_) _
  rw [packPixelAccesses, List.count_cons_of_ne (by simp)]
  exact count_flatMap_congr (fun b => by simp [packBitAccesses, List.count_cons]) _

/-- ENCODE reads an index once for each pixel that has it. -/
theorem count_pack_gRead (n : Nat) : (s.accessRun.pack e f).trace.count (.gRead n) = (e.image f).count n := by
  rw [pack_trace, List.count_reverse, image_eq_flatMap]
  refine count_flatMap_congr (fun c => ?_) _
  have hbits : Access.gRead n ∉ lanes.flatMap (packBitAccesses f c.2) := by simp [packBitAccesses]
  rw [packPixelAccesses, List.count_cons, List.count_eq_zero_of_not_mem hbits]
  simp [List.count_singleton]

theorem gWrite_not_mem_pack (n : Nat) : Access.gWrite n ∉ (s.accessRun.pack e f).trace := by
  simp [pack_trace, packPixelAccesses, packBitAccesses]

end Counts

/-- An access that occurs as often as the loops visit its byte does not occur outside the footprint. -/
theorem not_mem_of_count_eq_visits {f : Fields} {a : Nat} {v : Access} {l : List Access}
    (hcount : l.count v = (planarVisits f).count a) (ha : ¬ InFootprint f a) : v ∉ l := by
  rw [← List.count_eq_zero, hcount, List.count_eq_zero, mem_planarVisits]
  exact ha

end Sys2Proof.Machine
end

section
/-! The statements about the memories: the footprint, the frames of the two commands, their completion and their races, and the
accesses of their sequences. -/

namespace Sys2Proof.Machine

/-- Settles O7: the offset of a plane byte is `16 * (b / 2) + b % 2 + 2 * y`, whose three parts are digits of `k`. -/
theorem tileIs64ContiguousBytes : Obligations.TileIs64ContiguousBytes := by
  intro f
  refine ⟨fun b y => ⟨rfl, planarAddr_inFootprint f b y⟩, fun b y b' y' h => planarAddr_injective h, fun k hk => ?_⟩
  have hplane : 2 * (k >>> 4) + (k &&& 1) = 2 * (k / 16) + k % 2 := by
    rw [Nat.shiftRight_eq_div_pow, Nat.and_one_is_mod]
  have hrow : (k >>> 1) &&& 7 = k / 2 % 8 := by
    rw [Nat.shiftRight_one]
    exact Nat.and_two_pow_sub_one_eq_mod (k / 2) 3
  refine ⟨⟨2 * (k / 16) + k % 2, by omega⟩, ⟨k / 2 % 8, by omega⟩, hplane.symm, hrow.symm, ?_⟩
  rw [planarAddr_eq]
  simp only
  omega

/-- Settles O9: an admitted DECODE writes its image alone, another one nothing. -/
theorem decodeFrame : Obligations.DecodeFrame := by
  intro f s t h
  obtain ⟨hkeeps, hresp⟩ := exec_surroundings h
  by_cases ha : s.env.Admits f
  · obtain ⟨hp, hg⟩ := exec_decode_memories ha h
    exact ⟨hp, fun i hi => hg ▸ read_unpackedCells_of_not_inImage s.p s.g s.draws hi, hkeeps, hresp⟩
  · obtain ⟨hp, hg⟩ := exec_memories_of_not_admits (i := .decode f) ha h
    exact ⟨hp, fun i _ => by rw [hg], hkeeps, hresp⟩

/-- Settles O14: an admitted ENCODE writes its footprint alone, another one nothing. -/
theorem encodeFrame : Obligations.EncodeFrame := by
  intro f s t h
  obtain ⟨hkeeps, hresp⟩ := exec_surroundings h
  by_cases ha : s.env.Admits f
  · obtain ⟨hp, hg⟩ := exec_encode_memories ha h
    exact ⟨hg, fun a hout => hp ▸ read_packedCells_of_not_inFootprint s.p s.g hout, hkeeps, hresp⟩
  · obtain ⟨hp, hg⟩ := exec_memories_of_not_admits (i := .encode f) ha h
    exact ⟨hg, fun a _ => by rw [hp], hkeeps, hresp⟩

/-- Settles O19: the contract of `address` puts the image of an admitted command in the store. -/
theorem admittedCommandCompletes : Obligations.AdmittedCommandCompletes :=
  fun _ _ ha hc => exec_of_admits ha (imageInStore_of_contract ha hc)

/-- Settles O25: `PBUF_LEN` is at most `2^ADDR_W`, so a footprint that passes either does not fit the buffer. -/
theorem footprintNeverWraps : Obligations.FootprintNeverWraps := by
  intro i s hwf hw hh hpasses
  obtain ⟨-, -, hlen⟩ := hwf
  have hnot : ¬ s.env.Admits i.fields := by
    rintro ⟨-, -, hfits, -⟩
    omega
  have hexec := exec_of_check (check_eq_outOfRange hw hh hnot)
  exact ⟨fun _ _ => rfl, _, hexec, responds_raise .., State.raise_p .., State.raise_g ..⟩

/-- Settles O27: a pixel at or above `GRID_LEN` takes the image out of the store. -/
theorem brokenAccessorIsRefused : Obligations.BrokenAccessorIsRefused := by
  intro i s ha ⟨x, y, hpix⟩
  exact exec_of_not_imageInStore ha fun hi => Nat.not_lt.2 hpix (imageInStore_iff.1 hi x y)

/-- Settles O32: each sequence's accesses are counted pixel by pixel. -/
theorem accessSequencesTouch : Obligations.AccessSequencesTouch := by
  refine ⟨fun f s => ⟨fun a ha => ?_, fun a ha => ?_, pWrite_not_mem_unpack _ f s, gRead_not_mem_unpack _ f s,
      count_unpack_gWrite _ f s⟩,
    fun f s => ⟨fun a ha => ⟨?_, ?_⟩, fun a ha => ⟨?_, ?_⟩, count_pack_gRead _ f s, gWrite_not_mem_pack _ f s⟩⟩
  · exact (count_unpack_pRead _ f s a).trans (count_planarVisits ha)
  · exact not_mem_of_count_eq_visits (count_unpack_pRead _ f s a) ha
  · exact (count_pack_pRead _ f s a).trans (count_planarVisits ha)
  · exact (count_pack_pWrite _ f s a).trans (count_planarVisits ha)
  · exact not_mem_of_count_eq_visits (count_pack_pRead _ f s a) ha
  · exact not_mem_of_count_eq_visits (count_pack_pWrite _ f s a) ha

/-- Settles O39: the three steps are acceptance, completion while the host waits for the response, and the taking of it. -/
theorem issueThenTakeIsOneCommand : Obligations.IssueThenTakeIsOneCommand := by
  intro s u w i rest hidle hpending hhost hdecode hrace hexec
  have hissue : step s = .next (({ s with host := .takeResponse :: rest } : State).accept i) :=
    (step_of_issue hidle hhost).trans (act_issue (s := { s with host := .takeResponse :: rest }) hdecode hrace)
  obtain ⟨v, hv, hp, hg, st, ⟨-, hupending⟩, hvphase, hvpending⟩ := exec_of_same_memories
    (s' := ({ s with host := .takeResponse :: rest } : State).accept i) hexec rfl rfl rfl rfl
  obtain ⟨⟨hvenv, hvothers, hvhost, -, hvtaken⟩, -⟩ := exec_surroundings hv
  rw [hpending, List.nil_append] at hupending
  rw [State.accept_pending, hpending, List.nil_append] at hvpending
  have hcomplete : step (({ s with host := .takeResponse :: rest } : State).accept i) = .next v :=
    (step_of_waits rfl (by simp [hpending])).trans ((await_of_busy (State.accept_phase _ i)).trans hv)
  have htake : step v = .next (({ v with host := rest } : State).take ⟨st, i⟩ []) :=
    (step_of_not_waits hvhost (by simp [hvpending])).trans
      (act_takeResponse (s := { v with host := rest }) hvpending)
  refine ⟨_, st, ⟨_, hissue, v, hcomplete, _, htake, rfl⟩, hp, hg, hupending, ?_, rfl, hvphase, rfl, hvenv, hvothers⟩
  exact congrArg (· ++ [st]) hvtaken

/-- Settles O44: overlapping footprints or images are what `races_iff` names, and `act` refuses the race. -/
theorem racingCommandIsRefused : Obligations.RacingCommandIsRefused := by
  intro s c rest w i j hidle hhost hdecode hc hj hi hadm
  have hrefused : (s.env.accesses i).races (s.env.accesses j) = true → step s = .refused .dataRace := fun hraces =>
    (step_of_issue hidle hhost).trans
      (act_issue_of_races (s := { s with host := rest }) hdecode (racesWith_eq_true.2 ⟨c, hc, j, hj, hraces⟩))
  exact ⟨fun hop hlt hlt' => hrefused ((races_iff hi hadm).2 (.inl ⟨hop, hlt, hlt'⟩)),
    fun hop n hin hjn => hrefused ((races_iff hi hadm).2 (.inr ⟨hop, n, hin, hjn⟩))⟩

/-- Settles O45: a command that fails its checks accesses nothing, and an admitted one is apart from every admitted
outstanding one. -/
theorem raceFreeCommandIsAccepted : Obligations.RaceFreeCommandIsAccepted := by
  intro s rest w i hidle hhost hdecode hapart
  have hrace : racesWith s.env (s.env.accesses i) s.others = false := by
    by_cases hi : s.env.Admits i.fields
    · refine racesWith_eq_false_of_admits fun c hc j hj hadm => ?_
      obtain ⟨hp, hg⟩ := hapart c hc j hj hi hadm
      exact not_races_of_apart hi hadm hp hg
    · rw [accesses_of_not_admits hi]
      exact racesWith_empty
  have hstep : step s = .next (({ s with host := rest } : State).accept i) :=
    (step_of_issue hidle hhost).trans (act_issue (s := { s with host := rest }) hdecode hrace)
  exact ⟨_, hstep, rfl, rfl, rfl, rfl, rfl, rfl, rfl⟩

/-- Settles O46: what each command writes depends only on what it reads, and the other one writes none of that. -/
theorem raceFreeCommandsCommute : Obligations.RaceFreeCommandsCommute := by
  intro i j s hp hg hci hcj hraces
  obtain ⟨t, ht⟩ := exists_exec_of_contract i (s := s) hci.1
  obtain ⟨u, hu⟩ := exists_exec_of_contract j (s := s) hci.1
  obtain ⟨⟨hte, -⟩, -⟩ := exec_surroundings ht
  obtain ⟨⟨hue, -⟩, -⟩ := exec_surroundings hu
  obtain ⟨tj, htj⟩ := exists_exec_of_contract j (hte.symm ▸ hci.1)
  obtain ⟨ui, hui⟩ := exists_exec_of_contract i (hue.symm ▸ hci.1)
  obtain ⟨hsp, hsg⟩ := sameBytes_of_not_races ⟨hp, hg⟩ hci hraces ht htj hu hui hcj
  exact ⟨t, tj, u, ui, ht, htj, hu, hui, hsp, hsg⟩

/-- Settles O42: no footprint or image reaches such a byte, so the access does not race, and it faults. -/
theorem hostAccessOutsideFaults : Obligations.HostAccessOutsideFaults := by
  refine fun s rest => ⟨fun a v ha hhost => ?_, fun n v hc hn hhost => ?_⟩
  · obtain ⟨hwrite, hread⟩ := act_planar_outside (s := { s with host := rest }) ha v
    rcases hhost with hhost | hhost
    · exact (step_of_not_waits hhost rfl).trans hwrite
    · exact (step_of_not_waits hhost rfl).trans hread
  · obtain ⟨hwrite, hread⟩ := act_pixel_outside (s := { s with host := rest }) hc hn v
    rcases hhost with hhost | hhost
    · exact (step_of_not_waits hhost rfl).trans hwrite
    · exact (step_of_not_waits hhost rfl).trans hread

end Sys2Proof.Machine
end

section
/-! The `CMD` word as a number in a mixed radix (R72): `op`, `width`, `height`, `tile_addr`, `base_x` and `base_y` are its digits,
the lowest first. The encoder puts the digits together and `bitsAt` takes one out, so each undoes the other. -/

namespace Sys2Proof

/-! ### Bits of a number -/

/-- Two neighbouring bit fields as one. -/
theorem bitsAt_add (w lo m n : Nat) : bitsAt w lo (m + n) = bitsAt w lo m + 2 ^ m * bitsAt w (lo + m) n := by
  rw [bitsAt, bitsAt, bitsAt, Nat.shiftRight_add, Nat.shiftRight_eq_div_pow _ m, pow_add, Nat.mod_mul]

theorem bitsAt_zero_of_lt {w n : Nat} (h : w < 2 ^ n) : bitsAt w 0 n = w := Nat.mod_eq_of_lt h

/-- The lowest digit. -/
theorem bitsAt_digit {d n : Nat} (r : Nat) (h : d < 2 ^ n) : bitsAt (d + 2 ^ n * r) 0 n = d := by
  rw [bitsAt, Nat.shiftRight_zero, Nat.add_mul_mod_self_left, Nat.mod_eq_of_lt h]

/-- What lies above the lowest digit. -/
theorem bitsAt_above_digit {d n : Nat} (r lo len : Nat) (h : d < 2 ^ n) :
    bitsAt (d + 2 ^ n * r) (n + lo) len = bitsAt r lo len := by
  have hquotient : (d + 2 ^ n * r) >>> n = r := by
    rw [Nat.shiftRight_eq_div_pow, Nat.add_mul_div_left _ _ (Nat.two_pow_pos n), Nat.div_eq_of_lt h, Nat.zero_add]
  rw [bitsAt, Nat.shiftRight_add, hquotient, bitsAt]

/-- A mask of `len` ones at `lo` keeps the bits there. -/
theorem and_mask (w lo len : Nat) : w &&& (2 ^ len - 1) <<< lo = bitsAt w lo len <<< lo := by
  refine Nat.eq_of_testBit_eq fun k => ?_
  by_cases hk : lo ≤ k
  · simp [bitsAt, hk, Bool.and_comm]
  · simp [hk]

/-! ### The digits of a word -/

/-- The sum of R72 in Horner's form. -/
theorem encode_eq_digits (ws : Widths) (i : Instr) :
    encode ws i = i.op + 2 ^ 1 * (i.fields.width.toNat + 2 ^ 8 * (i.fields.height.toNat + 2 ^ 8 *
      (i.fields.tileAddr + 2 ^ ws.addrW * (i.fields.baseX + 2 ^ ws.coordW * i.fields.baseY)))) := by
  simp only [encode, encodeFields, Nat.shiftLeft_eq, pow_add]
  ring

/-- Every word is the Horner sum of the bit fields at the places of R72. -/
theorem eq_digits_of_lt {ws : Widths} {w : Nat} (h : w < 2 ^ cmdBits ws) :
    w = bitsAt w 0 1 + 2 ^ 1 * (bitsAt w 1 8 + 2 ^ 8 * (bitsAt w 9 8 + 2 ^ 8 *
      (bitsAt w 17 ws.addrW + 2 ^ ws.addrW *
        (bitsAt w (17 + ws.addrW) ws.coordW + 2 ^ ws.coordW * bitsAt w (17 + ws.addrW + ws.coordW) ws.coordW)))) := by
  have hlength : cmdBits ws = 1 + (8 + (8 + (ws.addrW + (ws.coordW + ws.coordW)))) := by
    rw [cmdBits]
    omega
  calc w = bitsAt w 0 (1 + (8 + (8 + (ws.addrW + (ws.coordW + ws.coordW))))) :=
        (bitsAt_zero_of_lt (hlength ▸ h)).symm
    _ = _ := by simp only [bitsAt_add, Nat.zero_add, Nat.reduceAdd]

theorem Instr.op_lt (i : Instr) : i.op < 2 ^ 1 := by
  cases i <;> simp [Instr.op]

theorem bitsAt_op_encode (ws : Widths) (i : Instr) : bitsAt (encode ws i) 0 1 = i.op := by
  rw [encode_eq_digits, bitsAt_digit _ (Instr.op_lt i)]

theorem Fields.wf_iff {ws : Widths} {f : Fields} :
    f.wf ws ↔ f.tileAddr < 2 ^ ws.addrW ∧ f.baseX < 2 ^ ws.coordW ∧ f.baseY < 2 ^ ws.coordW := by
  simp [Fields.wf, and_assoc]

/-- Each operand is read back from its place: below it lie the digits that the place skips. -/
theorem decodeFields_encode {ws : Widths} {i : Instr} (hi : i.wf ws) : decodeFields ws (encode ws i) = i.fields := by
  obtain ⟨ha, hx, hy⟩ := Fields.wf_iff.1 hi
  have hop := Instr.op_lt i
  have hw := i.fields.width.isLt
  have hh := i.fields.height.isLt
  have hwidth : bitsAt (encode ws i) 1 8 = i.fields.width.toNat := by
    rw [encode_eq_digits, bitsAt_above_digit _ 0 _ hop, bitsAt_digit _ hw]
  have hheight : bitsAt (encode ws i) 9 8 = i.fields.height.toNat := by
    rw [encode_eq_digits, bitsAt_above_digit _ 8 _ hop, bitsAt_above_digit _ 0 _ hw, bitsAt_digit _ hh]
  have habove : ∀ lo len, bitsAt (encode ws i) (17 + lo) len =
      bitsAt (i.fields.tileAddr + 2 ^ ws.addrW * (i.fields.baseX + 2 ^ ws.coordW * i.fields.baseY)) lo len := by
    intro lo len
    rw [show 17 + lo = 1 + (8 + (8 + lo)) by omega, encode_eq_digits, bitsAt_above_digit _ _ _ hop,
      bitsAt_above_digit _ _ _ hw, bitsAt_above_digit _ _ _ hh]
  have htileAddr : bitsAt (encode ws i) 17 ws.addrW = i.fields.tileAddr :=
    (habove 0 _).trans (bitsAt_digit _ ha)
  have hbaseX : bitsAt (encode ws i) (17 + ws.addrW) ws.coordW = i.fields.baseX :=
    (habove _ _).trans ((bitsAt_above_digit _ 0 _ ha).trans (bitsAt_digit _ hx))
  have hbaseY : bitsAt (encode ws i) (17 + ws.addrW + ws.coordW) ws.coordW = i.fields.baseY := by
    rw [Nat.add_assoc, habove, bitsAt_above_digit _ _ _ ha]
    exact (bitsAt_above_digit _ 0 _ hx).trans (bitsAt_zero_of_lt hy)
  simp [decodeFields, hwidth, hheight, htileAddr, hbaseX, hbaseY]

/-! ### Decoder and encoder -/

/-- A command is its `op` and its operand fields. -/
theorem Instr.ite_op_fields (i : Instr) : (if i.op = 0 then .decode i.fields else .encode i.fields) = i := by
  cases i <;> rfl

theorem encode_lt {ws : Widths} {i : Instr} (hi : i.wf ws) : encode ws i < 2 ^ cmdBits ws := by
  cases i with
  | decode f => exact Laws.EncodeFits.decode f ws hi
  | encode f => exact Laws.EncodeFits.encode f ws hi

theorem decode_encode {ws : Widths} {i : Instr} (hi : i.wf ws) : decode ws (encode ws i) = .ok i := by
  rw [decode_of_lt (encode_lt hi), bitsAt_op_encode, decodeFields_encode hi, Instr.ite_op_fields]

theorem decode_of_encode_eq {ws : Widths} {i : Instr} {w : Nat} (hi : i.wf ws) (hw : encode ws i = w) :
    decode ws w = .ok i :=
  hw ▸ decode_encode hi

/-- What a decoded command is made of: bit 0 and the bits at the places of R72. -/
theorem op_fields_of_decode {ws : Widths} {w : Nat} {i : Instr} (hw : w < 2 ^ cmdBits ws) (hd : decode ws w = .ok i) :
    i.op = bitsAt w 0 1 ∧ i.fields = decodeFields ws w := by
  rw [decode_of_lt hw] at hd
  obtain rfl := Except.ok.inj hd
  have hbit := bitsAt_lt w 0 1
  split
  next hzero => exact ⟨hzero.symm, rfl⟩
  next hone => exact ⟨by rw [Instr.op]; omega, rfl⟩

theorem encode_of_decode {ws : Widths} {w : Nat} {i : Instr} (hw : w < 2 ^ cmdBits ws) (hd : decode ws w = .ok i) :
    encode ws i = w := by
  obtain ⟨hop, hfields⟩ := op_fields_of_decode hw hd
  rw [encode_eq_digits, hop, hfields]
  simp only [decodeFields, BitVec.toNat_ofNat, Nat.mod_eq_of_lt (bitsAt_lt _ _ 8)]
  exact (eq_digits_of_lt hw).symm

theorem Instr.op_eq_zero_iff {i : Instr} : i.op = 0 ↔ ∃ f, i = .decode f := by
  cases i <;> simp [Instr.op]

theorem Instr.op_eq_one_iff {i : Instr} : i.op = 1 ↔ ∃ f, i = .encode f := by
  cases i <;> simp [Instr.op]

/-- R76 on the word: its 16 bits from bit 1 on hold `width` and `height`. -/
theorem legal_decodeFields_iff (ws : Widths) (w : Nat) :
    (decodeFields ws w).legal = true ↔ w &&& 0x1FFFE = 0x01010 := by
  have hmask : w &&& 0x1FFFE = (bitsAt w 1 8 + 2 ^ 8 * bitsAt w 9 8) <<< 1 := by
    rw [← bitsAt_add w 1 8 8]
    exact and_mask w 1 16
  have hw := bitsAt_lt w 1 8
  have hh := bitsAt_lt w 9 8
  have hlegal : (decodeFields ws w).legal = true ↔ bitsAt w 1 8 = 8 ∧ bitsAt w 9 8 = 8 := by
    simp only [Fields.legal, decodeFields, Bool.and_eq_true, decide_eq_true_eq, ← BitVec.toNat_inj, BitVec.toNat_ofNat,
      Nat.mod_eq_of_lt hw, Nat.mod_eq_of_lt hh]
    rfl
  rw [hlegal, hmask, Nat.shiftLeft_eq]
  omega

/-! ### Listing lines -/

/-- The operands of a command make a line: each fits its field. -/
theorem fieldsOfNumbers_of_wf {ws : Widths} {f : Fields} (h : f.wf ws) :
    fieldsOfNumbers ws f.tileAddr f.baseX f.baseY f.width.toNat f.height.toNat = some f := by
  simp [fieldsOfNumbers, h, f.width.isLt, f.height.isLt]

end Sys2Proof
end

section
/-! The statements about the encoding: command words, listing lines and status codes. -/

namespace Sys2Proof.Machine

/-- Settles O1: the word of a command holds `op` and the operand fields as its digits, and the decoder reads each at its place. -/
theorem encodeThenDecodeGivesTheCommand : Obligations.EncodeThenDecodeGivesTheCommand :=
  fun _ _ hi => ⟨encode_lt hi, decode_encode hi⟩

/-- Settles O2: the bit fields of R72 cover the word, so its digits are the whole of it; bit 0 is the `op`. -/
theorem everyWordIsOneCommand : Obligations.EveryWordIsOneCommand := by
  intro ws w hw
  obtain ⟨i, hdecode⟩ : ∃ i, decode ws w = .ok i := ⟨_, decode_of_lt hw⟩
  obtain ⟨hop, hfields⟩ := op_fields_of_decode hw hdecode
  have hbit : w &&& 0x1 = i.op := (and_mask w 0 1).trans hop.symm
  refine ⟨i, hdecode, decode_wf hdecode, encode_of_decode hw hdecode, fun hzero => ?_, fun hone => ?_, ?_⟩
  · exact Instr.op_eq_zero_iff.1 (hbit.symm.trans hzero)
  · exact Instr.op_eq_one_iff.1 (hbit.symm.trans hone)
  · rw [hfields]
    exact legal_decodeFields_iff ws w

/-- A number that is no word is refused at the command input (log 17). -/
theorem act_issue_of_error {s : State} {w : Nat} {e : DecodeError} (hd : decode s.env.widths w = .error e) :
    s.act (.issue w) = .refused .notACommandWord := by
  simp [State.act, HostAction.accesses, racesWith_empty, State.present, hd]

/-- Settles O3: the decoder refuses the number, and an `IDLE` codec presents it to the decoder. -/
theorem wideNumberIsNoCommand : Obligations.WideNumberIsNoCommand :=
  ⟨fun _ _ hwide => decode_of_ge hwide, fun s _ rest hwide hidle hhost =>
    (step_of_issue hidle hhost).trans (act_issue_of_error (s := { s with host := rest }) (decode_of_ge hwide))⟩

/-- Settles O4: each word is the encoding of the command beside it. -/
theorem workedWordsDecode : Obligations.WorkedWordsDecode :=
  ⟨decode_of_encode_eq rfl rfl, decode_of_encode_eq rfl rfl, decode_of_encode_eq rfl rfl, decode_of_encode_eq rfl rfl,
    decode_of_encode_eq rfl rfl, decode_of_encode_eq rfl rfl⟩

/-- Settles O5: both lines are the same five numbers, which are the operands of the command. -/
theorem omittedDimensionsAreEight : Obligations.OmittedDimensionsAreEight :=
  fun _ _ _ _ => ⟨rfl, fun hwf => fieldsOfNumbers_of_wf hwf⟩

/-- Settles O26: the codes as written, and no status has the fourth. -/
theorem statusCodes : Obligations.StatusCodes := by
  refine ⟨rfl, rfl, rfl, fun st => ?_⟩
  cases st <;> decide

end Sys2Proof.Machine
end

section
/-! The pixels of DECODE: what each is after the command, and what it depends on. -/

namespace Sys2Proof.Machine

/-! ### The pixel at an index -/

/-- Under the contracts an admitted DECODE leaves at `pix(x, y)` the pixel that its row's plane bytes make (R100). -/
theorem exec_decode_pixel {f : Fields} {s t : State} (ha : s.env.Admits f) (hc : s.env.Contracts f) (hg : s.g.wf)
    (h : exec (.decode f) s = .next t) (x y : Lane) : t.g.read (s.env.pix f x y) = unpackedPixel s.p f x y := by
  obtain ⟨-, htg⟩ := exec_decode_memories ha h
  rw [htg]
  exact read_unpackedCells_of_contracts s.p s.draws ha hc hg x y

/-! ### What a pixel and its index depend on -/

/-- Tiles of equal bytes, offset by offset, have equal pixels, wherever in `P` they lie (R102). -/
theorem unpackedPixel_of_same_tile {f f' : Fields} {p p' : Memory}
    (h : ∀ k, k < 64 → p'.read (f'.tileAddr + k) = p.read (f.tileAddr + k)) (x y : Lane) :
    unpackedPixel p' f' x y = unpackedPixel p f x y := by
  have hplane : ∀ b, p'.read (planarAddr f' b y) = p.read (planarAddr f b y) := fun b => by
    rw [planarAddr_eq, planarAddr_eq]
    exact h _ (by omega)
  simp only [unpackedPixel, hplane]

/-- `address` depends on the accessor and on `GRID_W`, for the row-major form (R53). -/
theorem address_congr {e e' : Env} (ha : e'.accessor = e.accessor) (hw : e'.gridW = e.gridW) (x y : Nat) :
    e'.address x y = e.address x y := by
  simp only [Env.address, Env.rowMajorIndex, ha, hw]

/-- `pix` depends on `advance`, `address` and the origin (R51). -/
theorem pix_congr {e e' : Env} {f f' : Fields} (ht : e'.transform = e.transform) (ha : e'.accessor = e.accessor)
    (hw : e'.gridW = e.gridW) (hx : f'.baseX = f.baseX) (hy : f'.baseY = f.baseY) (x y : Lane) :
    e'.pix f' x y = e.pix f x y := by
  have hcoord : e'.coord f' x y = e.coord f x y := by simp only [Env.coord, ht, hx, hy]
  rw [Env.pix, Env.pix, hcoord, address_congr ha hw]

/-! ### The statements -/

/-- Settles O8: the contracts put the image in the store and keep its indices apart, so each index holds its own pixel, whose
bits are those of its plane bytes. -/
theorem decodeUnpacksTheTile : Obligations.DecodeUnpacksTheTile := by
  intro f s ha hc hg
  obtain ⟨t, hexec, hresp, hkeeps⟩ := exec_of_admits (i := .decode f) ha (imageInStore_of_contract ha hc.1)
  obtain ⟨hp, hout, -⟩ := decodeFrame f s t hexec
  refine ⟨t, hexec, hresp, hkeeps, hp, fun x y b => ?_, hout⟩
  rw [exec_decode_pixel ha hc hg hexec]
  exact unpackedPixel_getLsbD s.p f x y b

/-- Settles O10: the two commands target the same indices, and leave there the pixels of equal tiles. -/
theorem decodeDependsOnFootprintOnly : Obligations.DecodeDependsOnFootprintOnly := by
  intro f f' s s' t t' htransform haccessor hgridW hbaseX hbaseY ha ha' hc hc' hg hg' htile h h' x y
  have hpix : s'.env.pix f' x y = s.env.pix f x y := pix_congr htransform haccessor hgridW hbaseX hbaseY x y
  refine ⟨hpix, ?_⟩
  calc t'.g.read (s.env.pix f x y)
      = t'.g.read (s'.env.pix f' x y) := by rw [hpix]
    _ = unpackedPixel s'.p f' x y := exec_decode_pixel ha' hc' hg' h' x y
    _ = unpackedPixel s.p f x y := unpackedPixel_of_same_tile htile x y
    _ = t.g.read (s.env.pix f x y) := (exec_decode_pixel ha hc hg h x y).symm

end Sys2Proof.Machine
end

section
/-! The plane bytes of ENCODE: what each is after the command, what it depends on, and what it is in the middle of the access
sequence. -/

namespace Sys2Proof.Machine

/-! ### The byte at a plane address -/

/-- An admitted ENCODE leaves at `pa(b, y)` the byte that the pixels of row `y` make (R110). -/
theorem exec_encode_plane {f : Fields} {s t : State} (ha : s.env.Admits f) (hp : s.p.wf)
    (h : exec (.encode f) s = .next t) (b y : Lane) : t.p.read (planarAddr f b y) = s.env.packedByte f s.g b y := by
  obtain ⟨htp, -⟩ := exec_encode_memories ha h
  rw [htp]
  exact read_packedCells hp b y

/-- A plane byte of ENCODE takes its bit `7 - x` from bit `b` of pixel `x` of its row (R48, R110). -/
theorem packedByte_getLsbD (e : Env) (f : Fields) (g : Memory) (x b y : Lane) :
    (e.packedByte f g b y).getLsbD (7 - x.val) = (g.read (e.pix f x y)).getLsbD b.val :=
  assemblePlane_getLsbD _ b x

/-! ### What a plane byte depends on -/

/-- Images of equal pixels make equal plane bytes, wherever in `G` they lie (R113). -/
theorem packedByte_of_same_image {e e' : Env} {f f' : Fields} {g g' : Memory}
    (h : ∀ x y, g'.read (e'.pix f' x y) = g.read (e.pix f x y)) (b y : Lane) :
    e'.packedByte f' g' b y = e.packedByte f g b y := by
  simp only [Env.packedByte, h]

/-- The plane and row of a footprint byte are the same for every tile: they depend on its offset alone (R46). -/
theorem exists_planarAddr_of_offset {k : Nat} (hk : k < 64) :
    ∃ b y : Lane, ∀ f : Fields, planarAddr f b y = f.tileAddr + k := by
  obtain ⟨b, y, hoffset⟩ := exists_planarAddr (f := ⟨8, 8, 0, 0, 0⟩) (a := k) ⟨Nat.zero_le k, by simpa using hk⟩
  rw [planarAddr_eq, Nat.zero_add] at hoffset
  exact ⟨b, y, fun f => by rw [planarAddr_eq, hoffset]⟩

/-! ### After some columns -/

/-- The columns before column `c`, in loop order, are those numbered below `c`. -/
theorem mem_take_lanes {x : Lane} {c : Nat} (hc : c ≤ 8) : x ∈ lanes.take c ↔ x.val < c := by
  revert x
  interval_cases c <;> decide

/-- Bit `j` of a plane byte is its column `7 - j` (R45). -/
theorem sub_val_rev (j : Lane) : 7 - j.rev.val = j.val := by
  rw [Fin.val_rev]
  omega

/-- One step of R111 changes the byte at `pa(b, y)` alone, and there column `x` alone (R112, R126). -/
theorem packBit_read_getLsbD {f : Fields} {x y b : Lane} {r : AccessRun} (hp : r.p.wf) (hm : r.work.mask = columnMask x)
    {a : Nat} {k : Lane} (h : a ≠ planarAddr f b y ∨ k ≠ x) :
    ((r.packBit f x y b).p.read a).getLsbD (7 - k.val) = (r.p.read a).getLsbD (7 - k.val) := by
  rw [packBit_p f y b hm]
  by_cases ha : a = planarAddr f b y
  · subst ha
    have hk : k ≠ x := h.resolve_left fun hne => hne rfl
    rw [Memory.read_write_self _ _ hp, replaceColumn_getLsbD, if_neg hk]
  · rw [Memory.read_write_ne _ _ ha]

/-- After columns `0..c-1` of R111 these columns of a plane byte hold the new bits, and the others the old ones (R112). -/
theorem packColumns_take_read_getLsbD (e : Env) (f : Fields) {r : AccessRun} (hp : r.p.wf) {c : Nat} (hc : c ≤ 8)
    (b y k : Lane) : ((r.packColumns e f (lanes.take c)).p.read (planarAddr f b y)).getLsbD (7 - k.val) =
      if k.val < c then (r.g.read (e.pix f k y)).getLsbD b.val
      else (r.p.read (planarAddr f b y)).getLsbD (7 - k.val) := by
  obtain ⟨-, -, hbytes, -⟩ := packColumns_spec e f (lanes.take c) hp
  have hnodup : (lanes.take c).Nodup := lanes_nodup.sublist (List.take_sublist c lanes)
  rw [hbytes, foldl_replaceColumn_getLsbD hnodup _ (fun x => r.g.read (e.pix f x y)) b k]
  simp only [mem_take_lanes hc]

/-! ### The statements -/

/-- Settles O13: the contract puts the image in the store, so the command completes, and each plane address holds the byte of
its row's pixels. -/
theorem encodePacksTheTile : Obligations.EncodePacksTheTile := by
  intro f s ha hc hp
  obtain ⟨t, hexec, hresp, hkeeps⟩ := exec_of_admits (i := .encode f) ha (imageInStore_of_contract ha hc)
  obtain ⟨hg, hout, -⟩ := encodeFrame f s t hexec
  refine ⟨t, hexec, hresp, hkeeps, hg, fun x y b => ?_, hout⟩
  have hbyte : t.p.read (f.tileAddr + planeOffset b + 2 * y.val) = s.env.packedByte f s.g b y :=
    exec_encode_plane ha hp hexec b y
  rw [hbyte]
  exact packedByte_getLsbD s.env f s.g x b y

/-- Settles O15: an offset names the same plane and row in both tiles, and there both commands pack the same pixels. -/
theorem encodeDependsOnImageOnly : Obligations.EncodeDependsOnImageOnly := by
  intro f f' s s' t t' htransform haccessor hgridW hbaseX hbaseY ha ha' hp hp' himage h h' k hk
  obtain ⟨b, y, hplane⟩ := exists_planarAddr_of_offset hk
  have hsame : ∀ x y : Lane, s'.g.read (s'.env.pix f' x y) = s.g.read (s.env.pix f x y) := fun x y => by
    rw [pix_congr htransform haccessor hgridW hbaseX hbaseY x y, himage]
  calc t'.p.read (f'.tileAddr + k)
      = t'.p.read (planarAddr f' b y) := by rw [hplane]
    _ = s'.env.packedByte f' s'.g b y := exec_encode_plane ha' hp' h' b y
    _ = s.env.packedByte f s.g b y := packedByte_of_same_image hsame b y
    _ = t.p.read (planarAddr f b y) := (exec_encode_plane ha hp h b y).symm
    _ = t.p.read (f.tileAddr + k) := by rw [hplane]

/-- Settles O30: bit `j` is column `7 - j`, which is among the first `c` columns if `j` is one of the top `c` places. -/
theorem encodeIntermediateStates : Obligations.EncodeIntermediateStates := by
  refine ⟨fun f s c hp hc b y j => ?_, fun f r x y b hp hm a j h => ?_⟩
  · have hcolumn := packColumns_take_read_getLsbD s.env f (r := s.accessRun) hp hc b y j.rev
    have hplace : j.rev.val < c ↔ 8 - c ≤ j.val := by
      rw [Fin.val_rev]
      omega
    rw [sub_val_rev] at hcolumn
    simpa only [hplace, State.accessRun_p, State.accessRun_g] using hcolumn
  · have hcolumn : a ≠ planarAddr f b y ∨ j.rev ≠ x := h.imp_right fun hj hrev => hj (by rw [← hrev, Fin.rev_rev])
    simpa only [sub_val_rev] using packBit_read_getLsbD hp hm hcolumn

end Sys2Proof.Machine
end

section
/-! The access sequences against the transactions (R120), and what one column of ENCODE leaves alone (R126). -/

namespace Sys2Proof.Machine

/-- Under the contracts each pixel alone targets its index, so the writes of the access sequence of R101 are those of the
transaction, in the same order (R100). -/
theorem unpack_g {s : State} {f : Fields} (ha : s.env.Admits f) (hc : s.env.Contracts f) :
    (s.accessRun.unpack s.env f).g = s.g.writeAll (s.env.unpackedCells f s.p s.draws) := by
  obtain ⟨-, hg⟩ := unpackPixels_spec s.env f tileCoords s.accessRun
  have hbyte : ∀ c : Lane × Lane, s.env.unpackedByte f s.p s.draws c.1 c.2 = unpackedPixel s.p f c.1 c.2 :=
    fun c => unpackedByte_of_count (image_count ha hc c.1 c.2)
  simp only [AccessRun.unpack, hg, Env.unpackedCells, hbyte, State.accessRun_p, State.accessRun_g]

/-- The eight columns of R111 replace all eight bits of a plane byte, so nothing of the old byte is left (R110). -/
theorem foldl_replaceColumn_lanes (e : Env) (f : Fields) (g : Memory) (cur : Byte) (b y : Lane) :
    lanes.foldl (fun cur x => replaceColumn cur (g.read (e.pix f x y)) x b) cur = e.packedByte f g b y :=
  byte_ext_columns fun x => by
    rw [foldl_replaceColumn_getLsbD lanes_nodup cur (fun x => g.read (e.pix f x y)) b x, if_pos (mem_lanes x),
      packedByte_getLsbD]

/-- One column of R111 keeps the bits of the other columns of every plane byte (R126). -/
theorem packColumn_read_getLsbD_of_ne (e : Env) (f : Fields) {r : AccessRun} {x k : Lane} (b y : Lane) (hp : r.p.wf)
    (hk : k ≠ x) : ((r.packColumn e f x).p.read (planarAddr f b y)).getLsbD (7 - k.val) =
      (r.p.read (planarAddr f b y)).getLsbD (7 - k.val) := by
  obtain ⟨-, -, hbytes, -⟩ := packColumn_spec e f x hp
  rw [hbytes, replaceColumn_getLsbD, if_neg hk]

/-! ### The statements -/

/-- Settles O28: neither level writes `P`, and both make the same writes of `G`. -/
theorem decodeAccessSequenceAgrees : Obligations.DecodeAccessSequenceAgrees := by
  intro f s ha hc _
  obtain ⟨t, hexec, -⟩ := exec_of_admits (i := .decode f) ha (imageInStore_of_contract ha hc.1)
  obtain ⟨hp, hg⟩ := exec_decode_memories ha hexec
  obtain ⟨hpRun, -⟩ := unpackPixels_spec s.env f tileCoords s.accessRun
  refine ⟨t, hexec, ?_, fun n => ?_⟩
  · rw [AccessRun.unpack, hpRun, hp, State.accessRun_p]
  · rw [unpack_g ha hc, hg]

/-- Settles O29: the eight columns leave in each plane byte the byte of the transaction, and both levels leave every other
byte of `P`. -/
theorem encodeAccessSequenceAgrees : Obligations.EncodeAccessSequenceAgrees := by
  intro f s ha hc hp
  obtain ⟨t, hexec, -⟩ := exec_of_admits (i := .encode f) ha (imageInStore_of_contract ha hc)
  obtain ⟨hg, hout, -⟩ := encodeFrame f s t hexec
  obtain ⟨-, hgRun, hbytesRun, houtRun⟩ := packColumns_spec s.env f lanes (r := s.accessRun) hp
  refine ⟨t, hexec, hgRun.trans hg.symm, fun a => ?_⟩
  by_cases hin : InFootprint f a
  · obtain ⟨b, y, rfl⟩ := exists_planarAddr hin
    calc (s.accessRun.pack s.env f).p.read (planarAddr f b y)
        = lanes.foldl (fun cur x => replaceColumn cur (s.g.read (s.env.pix f x y)) x b) (s.p.read (planarAddr f b y)) :=
          hbytesRun b y
      _ = s.env.packedByte f s.g b y := foldl_replaceColumn_lanes s.env f s.g _ b y
      _ = t.p.read (planarAddr f b y) := (exec_encode_plane ha hp hexec b y).symm
  · exact (houtRun a hin).trans (hout a hin).symm

/-- Settles O31: a column of the sequence replaces its own bit of each plane byte and keeps the other seven. -/
theorem encodeColumnIsNonDestructive : Obligations.EncodeColumnIsNonDestructive :=
  fun e f _ _ _ b y hp hk => packColumn_read_getLsbD_of_ne e f b y hp hk

end Sys2Proof.Machine
end

section
/-! Packing and unpacking undo each other (R122, R123): both move bit `7 - x` of plane `b` to and from bit `b` of pixel `x`
(R48). -/

namespace Sys2Proof.Machine

/-- Pixels unpacked from a tile are packed into the bytes of that tile again (R122). -/
theorem packedByte_of_unpacked {e : Env} {f f' : Fields} {p g : Memory}
    (h : ∀ x y, g.read (e.pix f' x y) = unpackedPixel p f x y) (b y : Lane) :
    e.packedByte f' g b y = p.read (planarAddr f b y) :=
  byte_ext_columns fun x => by rw [packedByte_getLsbD, h, unpackedPixel_getLsbD]

/-- Bytes packed from an image are unpacked into the pixels of that image again (R123). -/
theorem unpackedPixel_of_packed {e : Env} {f f' : Fields} {p g : Memory}
    (h : ∀ b y, p.read (planarAddr f' b y) = e.packedByte f g b y) (x y : Lane) :
    unpackedPixel p f' x y = g.read (e.pix f x y) :=
  byte_ext fun b => by rw [unpackedPixel_getLsbD, h, packedByte_getLsbD]

/-- Tiles at one address have the same plane addresses. -/
theorem planarAddr_congr {f f' : Fields} (h : f'.tileAddr = f.tileAddr) (b y : Lane) :
    planarAddr f' b y = planarAddr f b y := by
  rw [planarAddr_eq, planarAddr_eq, h]

/-! ### The statements -/

/-- Settles O17: ENCODE reads the indices that DECODE wrote, and packs the pixels it finds there into the bytes they came
from. -/
theorem encodeOfDecodeRestoresTheBytes : Obligations.EncodeOfDecodeRestoresTheBytes := by
  intro f f' s t u htransform haccessor hgridW hbaseX hbaseY ha hc hg hdecode ha' hc' hp' hsame
  obtain ⟨v, hencode, -⟩ := exec_of_admits (i := .encode f') ha' (imageInStore_of_contract ha' hc')
  refine ⟨v, hencode, fun k hk => ?_⟩
  obtain ⟨b, y, hplane⟩ := exists_planarAddr_of_offset hk
  have hpixels : ∀ x y, u.g.read (u.env.pix f' x y) = unpackedPixel s.p f x y := fun x y => by
    rw [hsame, pix_congr htransform haccessor hgridW hbaseX hbaseY, exec_decode_pixel ha hc hg hdecode]
  calc v.p.read (f'.tileAddr + k)
      = v.p.read (planarAddr f' b y) := by rw [hplane]
    _ = u.env.packedByte f' u.g b y := exec_encode_plane ha' hp' hencode b y
    _ = s.p.read (planarAddr f b y) := packedByte_of_unpacked hpixels b y
    _ = s.p.read (f.tileAddr + k) := by rw [hplane]

/-- Settles O18: DECODE reads the bytes that ENCODE wrote, and unpacks them into the pixels they came from. -/
theorem decodeOfEncodeRestoresThePixels : Obligations.DecodeOfEncodeRestoresThePixels := by
  intro f f' s t u htile ha _ hp hencode ha' hc' hg' hsame
  obtain ⟨v, hdecode, -⟩ := exec_of_admits (i := .decode f') ha' (imageInStore_of_contract ha' hc'.1)
  have hplanes : ∀ b y, u.p.read (planarAddr f' b y) = s.env.packedByte f s.g b y := fun b y => by
    rw [planarAddr_congr htile, hsame _ (planarAddr_inFootprint f b y), exec_encode_plane ha hp hencode]
  exact ⟨v, hdecode, fun x y =>
    (exec_decode_pixel ha' hc' hg' hdecode x y).trans (unpackedPixel_of_packed hplanes x y)⟩

end Sys2Proof.Machine
end

section
/-! Single bits through the codec: the tile of R125, which sets column 0 of row 0 alone, and the flip of one bit (R124). -/

namespace Sys2Proof.Machine

/-! ### The tile of R125 -/

/-- The top bit alone is column 0 alone. -/
theorem topBit_getLsbD (x : Lane) : (0x80 : Byte).getLsbD (7 - x.val) = decide (x = 0) := by
  revert x
  decide

theorem ones_getLsbD (b : Lane) : (0xFF : Byte).getLsbD b.val = true := by
  revert b
  decide

/-- Where the plane bytes of row 0 are `0x80` and the others 0, every plane sets column 0 of row 0 and nothing else, and so
does every bit of every pixel. -/
theorem unpackedPixel_topBits_getLsbD {f : Fields} {p : Memory} (h0 : ∀ b, p.read (planarAddr f b 0) = 0x80)
    (h : ∀ b y, y ≠ 0 → p.read (planarAddr f b y) = 0) (x y b : Lane) :
    (unpackedPixel p f x y).getLsbD b.val = decide ((x, y) = (0, 0)) := by
  rw [unpackedPixel_getLsbD]
  by_cases hy : y = 0
  · subst hy
    rw [h0, topBit_getLsbD]
    simp
  · simp [h b y hy, hy]

/-! ### The flip of a bit -/

/-- One bit of one byte of a memory flipped. -/
def Memory.flip (m : Memory) (a : Nat) (k : Lane) : Memory := m.write a (m.read a ^^^ ((1 : Byte) <<< k.val))

/-- `x.rev` is the bit that holds column `x` (R45). -/
theorem rev_val (x : Lane) : x.rev.val = 7 - x.val := by
  rw [Fin.val_rev]
  omega

theorem bitFlip_getLsbD (v : Byte) (k j : Lane) :
    (v ^^^ ((1 : Byte) <<< k.val)).getLsbD j.val = (v.getLsbD j.val ^^ decide (j = k)) := by
  have hmask : ((1 : Byte) <<< k.val).getLsbD j.val = decide (j = k) := by
    revert k j
    decide
  rw [BitVec.getLsbD_xor, hmask]

theorem Memory.flip_read_getLsbD {m : Memory} (hm : m.wf) (a n : Nat) (k j : Lane) :
    ((m.flip a k).read n).getLsbD j.val = ((m.read n).getLsbD j.val ^^ decide (n = a ∧ j = k)) := by
  by_cases hn : n = a
  · subst hn
    simp only [Memory.flip, Memory.read_write_self _ _ hm, bitFlip_getLsbD, true_and]
  · simp [Memory.flip, Memory.read_write_ne _ _ hn, hn]

/-- Flipping bit `k` of plane `b`, row `y` flips bit `b` of pixel `(7 - k, y)` and no other bit (R124). -/
theorem unpackedPixel_flip_getLsbD {f : Fields} {p : Memory} (hp : p.wf) (b y k x' y' j : Lane) :
    (unpackedPixel (p.flip (planarAddr f b y) k) f x' y').getLsbD j.val =
      ((unpackedPixel p f x' y').getLsbD j.val ^^ decide ((x', y') = (k.rev, y) ∧ j = b)) := by
  have hplace : (planarAddr f j y' = planarAddr f b y ∧ x'.rev = k) ↔ ((x', y') = (k.rev, y) ∧ j = b) := by
    rw [planarAddr_inj, Fin.rev_eq_iff, Prod.mk.injEq]
    tauto
  rw [unpackedPixel_getLsbD, unpackedPixel_getLsbD, ← rev_val, Memory.flip_read_getLsbD hp, decide_eq_decide.2 hplace]

/-- Flipping bit `b` of pixel `(x, y)` flips bit `7 - x` of plane `b`, row `y` and no other bit (R124). -/
theorem packedByte_flip_getLsbD {e : Env} {f : Fields} {g : Memory} (ha : e.Admits f) (hc : e.Contracts f) (hg : g.wf)
    (x y b x' b' y' : Lane) :
    (e.packedByte f (g.flip (e.pix f x y) b) b' y').getLsbD (7 - x'.val) =
      ((e.packedByte f g b' y').getLsbD (7 - x'.val) ^^ decide ((b' = b ∧ y' = y) ∧ x' = x)) := by
  have hplace : (e.pix f x' y' = e.pix f x y ∧ b' = b) ↔ ((b' = b ∧ y' = y) ∧ x' = x) := by
    constructor
    · rintro ⟨hpix, rfl⟩
      obtain ⟨rfl, rfl⟩ := pix_injective ha hc hpix
      exact ⟨⟨rfl, rfl⟩, rfl⟩
    · rintro ⟨⟨rfl, rfl⟩, rfl⟩
      exact ⟨rfl, rfl⟩
  rw [packedByte_getLsbD, packedByte_getLsbD, Memory.flip_read_getLsbD hg, decide_eq_decide.2 hplace]

/-- R124 for DECODE, as pixels: the pixel that holds the bit changes there, the others stay. -/
theorem unpackedPixel_flip {f : Fields} {p : Memory} (hp : p.wf) (b y k : Lane) :
    unpackedPixel (p.flip (planarAddr f b y) k) f k.rev y = unpackedPixel p f k.rev y ^^^ ((1 : Byte) <<< b.val) ∧
    ∀ x' y' : Lane, (x', y') ≠ (k.rev, y) →
      unpackedPixel (p.flip (planarAddr f b y) k) f x' y' = unpackedPixel p f x' y' := by
  refine ⟨byte_ext fun j => ?_, fun x' y' hne => byte_ext fun j => ?_⟩
  · simp only [unpackedPixel_flip_getLsbD hp, bitFlip_getLsbD, true_and]
  · rw [unpackedPixel_flip_getLsbD hp, decide_eq_false fun h => hne h.1, Bool.xor_false]

/-- R124 for ENCODE, as plane bytes: the byte that holds the bit changes there, the others stay. -/
theorem packedByte_flip {e : Env} {f : Fields} {g : Memory} (ha : e.Admits f) (hc : e.Contracts f) (hg : g.wf)
    (x y b : Lane) :
    e.packedByte f (g.flip (e.pix f x y) b) b y = e.packedByte f g b y ^^^ ((1 : Byte) <<< (7 - x.val)) ∧
    ∀ b' y' : Lane, ¬ (b' = b ∧ y' = y) → e.packedByte f (g.flip (e.pix f x y) b) b' y' = e.packedByte f g b' y' := by
  refine ⟨byte_ext_columns fun x' => ?_, fun b' y' hne => byte_ext_columns fun x' => ?_⟩
  · rw [packedByte_flip_getLsbD ha hc hg, ← rev_val x, ← rev_val x', bitFlip_getLsbD]
    simp
  · simp [packedByte_flip_getLsbD ha hc hg, hne]

/-! ### The statements -/

/-- Settles O11: every bit of pixel `(0, 0)` is set, and no bit of any other. -/
theorem topBitsDecodeToColumnZero : Obligations.TopBitsDecodeToColumnZero := by
  intro f s ha hc hg hrow hrest
  obtain ⟨t, hexec, -⟩ := exec_of_admits (i := .decode f) ha (imageInStore_of_contract ha hc.1)
  have hrest' : ∀ b y : Lane, y ≠ 0 → s.p.read (planarAddr f b y) = 0 := fun b y hy =>
    hrest _ (planarAddr_inFootprint f b y) fun _ heq => hy (planarAddr_injective (y' := 0) heq).2
  have hbit := unpackedPixel_topBits_getLsbD (p := s.p) (f := f) hrow hrest'
  refine ⟨t, hexec, byte_ext fun b => ?_, fun x y hxy => byte_ext fun b => ?_⟩
  · rw [exec_decode_pixel ha hc hg hexec, hbit, ones_getLsbD, decide_eq_true rfl]
  · rw [exec_decode_pixel ha hc hg hexec, hbit, decide_eq_false hxy]
    exact BitVec.getLsbD_zero.symm

/-- Settles O16: in both directions a bit has one place on the other side, and what a command leaves is what it packs or
unpacks. -/
theorem oneBitFlipMovesOneBit : Obligations.OneBitFlipMovesOneBit := by
  constructor
  · rintro f s _ t t' b y k ha hc hp hg rfl h h'
    have hpixel : ∀ x' y', t.g.read (s.env.pix f x' y') = unpackedPixel s.p f x' y' := exec_decode_pixel ha hc hg h
    have hpixel' : ∀ x' y', t'.g.read (s.env.pix f x' y') = unpackedPixel (s.p.flip (planarAddr f b y) k) f x' y' :=
      exec_decode_pixel (s := s.withP (s.p.flip (planarAddr f b y) k)) ha hc hg h'
    simp only [hpixel, hpixel']
    exact unpackedPixel_flip hp b y k
  · rintro f s _ t t' x y b ha hc hp hg rfl h h'
    have hplane : ∀ b' y', t.p.read (planarAddr f b' y') = s.env.packedByte f s.g b' y' := exec_encode_plane ha hp h
    have hplane' : ∀ b' y', t'.p.read (planarAddr f b' y') = s.env.packedByte f (s.g.flip (s.env.pix f x y) b) b' y' :=
      exec_encode_plane (s := s.withG (s.g.flip (s.env.pix f x y) b)) ha hp h'
    obtain ⟨hself, hothers⟩ := packedByte_flip ha hc hg x y b
    refine ⟨by rw [hplane, hplane', hself], fun a hne => ?_⟩
    by_cases hin : InFootprint f a
    · obtain ⟨b', y', rfl⟩ := exists_planarAddr hin
      rw [hplane, hplane', hothers b' y' fun hsame => hne (planarAddr_inj.2 hsame)]
    · obtain ⟨-, hout, -⟩ := encodeFrame f s t h
      obtain ⟨-, hout', -⟩ := encodeFrame f _ t' h'
      exact (hout' a hin).trans (hout a hin).symm

end Sys2Proof.Machine
end

section
/-! Faults: which status a command responds with, that a faulting command leaves everything else alone, and that what a command
does under the contracts depends on nothing a fault leaves behind (R141 to R147). -/

namespace Sys2Proof.Machine

/-! ### When a command is admitted -/

section Checks
variable {e : Env} {f : Fields}

theorem legal_iff : f.legal = true ↔ f.width = 8 ∧ f.height = 8 := by
  simp [Fields.legal, Config.tileSide]

theorem not_legal_iff : f.legal = false ↔ f.width ≠ 8 ∨ f.height ≠ 8 := by
  rw [← Bool.not_eq_true, legal_iff, not_and_or]

theorem not_admits_of_dimensions (h : f.width ≠ 8 ∨ f.height ≠ 8) : ¬ e.Admits f := by
  rintro ⟨hw, hh, -⟩
  exact h.elim (· hw) (· hh)

/-- R172 d as the three checks of R144. -/
theorem admits_iff : e.Admits f ↔ f.legal = true ∧ f.tileAddr + 64 ≤ e.pbufLen ∧ e.gridOk f = true := by
  simp only [Env.Admits, legal_iff, gridOk_iff, inGrid_iff, and_assoc]

/-! ### The status of a command -/

/-- The status a command responds with: that of the first check that fails, else `OK` (R144). -/
def Env.statusOf (e : Env) (f : Fields) : Status := ((e.check f).map CodecFault.status).getD .ok

theorem statusOf_of_admits (h : e.Admits f) : e.statusOf f = .ok := by
  simp [Env.statusOf, check_eq_none_iff.2 h]

theorem statusOf_of_check {k : CodecFault} (h : e.check f = some k) : e.statusOf f = k.status := by
  simp [Env.statusOf, h]

theorem statusOf_of_not_admits (h : ¬ e.Admits f) :
    e.statusOf f = if f.width ≠ 8 ∨ f.height ≠ 8 then .invalidDimensions else .outOfRange := by
  obtain ⟨k, hk⟩ := Option.ne_none_iff_exists'.1 (mt check_eq_none_iff.1 h)
  rw [statusOf_of_check hk]
  rcases check_eq_some hk with ⟨rfl, hdims⟩ | ⟨rfl, ⟨hw, hh⟩, -⟩
  · exact (if_pos (not_and_or.1 hdims)).symm
  · exact (if_neg (not_or.2 ⟨not_not.2 hw, not_not.2 hh⟩)).symm

theorem statusOf_eq_invalidDimensions_iff : e.statusOf f = .invalidDimensions ↔ f.width ≠ 8 ∨ f.height ≠ 8 := by
  refine ⟨fun h => ?_, fun h => (statusOf_of_not_admits (not_admits_of_dimensions h)).trans (if_pos h)⟩
  by_cases ha : e.Admits f
  · cases (statusOf_of_admits ha).symm.trans h
  · rw [statusOf_of_not_admits ha] at h
    by_contra hdims
    cases (if_neg hdims).symm.trans h

theorem statusOf_eq_outOfRange (hl : f.legal = true) (h : ¬ e.Admits f) : e.statusOf f = .outOfRange :=
  (statusOf_of_not_admits h).trans (if_neg fun hdims => Bool.false_ne_true ((not_legal_iff.2 hdims).symm.trans hl))

end Checks

section Commands
variable {i : Instr} {s s' t t' : State}

/-- The one response of a command carries the status of its checks (R26, R144). -/
theorem exec_responds (h : exec i s = .next t) : Responds i s t (s.env.statusOf i.fields) := by
  rcases exec_next h with ⟨k, hk, rfl⟩ | ⟨ha, -, p, g, rfl, -⟩
  · rw [statusOf_of_check hk]
    exact responds_raise ..
  · rw [statusOf_of_admits ha]
    exact responds_respond ((s.withP p).withG g) i .ok

/-- The status of a response, from what the queue holds after it. -/
theorem statusOf_of_pending {st : Status} (h : exec i s = .next t)
    (hp : t.codec.pending = s.codec.pending ++ [⟨st, i⟩]) : s.env.statusOf i.fields = st := by
  obtain ⟨-, hpending⟩ := exec_responds h
  have hresponse := List.append_cancel_left (hpending.symm.trans hp)
  simpa using hresponse

/-- A command that is not admitted raises, and that is all it does (R145, R146). -/
theorem exec_raises {st : Status} (h : ¬ s.env.Admits i.fields) (hst : s.env.statusOf i.fields = st) :
    ∃ t, exec i s = .next t ∧ Responds i s t st ∧ t.p = s.p ∧ t.g = s.g ∧ KeepsSurroundings s t := by
  obtain ⟨k, hk⟩ := Option.ne_none_iff_exists'.1 (mt check_eq_none_iff.1 h)
  have hexec := exec_of_check hk
  exact ⟨_, hexec, hst ▸ exec_responds hexec, State.raise_p .., State.raise_g .., keepsSurroundings_raise ..⟩

/-! ### Independence of the draw -/

/-- Under the contracts no pixel of DECODE is a free value, so its writes do not depend on the draw (R100; log 9). -/
theorem unpackedCells_of_contracts {e : Env} {f : Fields} (p : Memory) (n n' : Nat) (ha : e.Admits f)
    (hc : e.Contracts f) : e.unpackedCells f p n = e.unpackedCells f p n' := by
  refine List.map_congr_left fun c _ => ?_
  have hcount := image_count ha hc c.1 c.2
  rw [unpackedByte_of_count hcount, unpackedByte_of_count hcount]

/-- Under the contracts, what a command leaves in the memories depends on the memories and the environment alone. -/
theorem exec_memories_of_same_memories (hc : s.env.Contracts i.fields) (hp : s'.p = s.p) (hg : s'.g = s.g)
    (he : s'.env = s.env) (h : exec i s = .next t) (h' : exec i s' = .next t') : t'.p = t.p ∧ t'.g = t.g := by
  by_cases ha : s.env.Admits i.fields
  · have ha' : s'.env.Admits i.fields := he.symm ▸ ha
    cases i with
    | decode f =>
      rw [Instr.fields_decode] at ha ha' hc
      obtain ⟨htp, htg⟩ := exec_decode_memories ha h
      obtain ⟨htp', htg'⟩ := exec_decode_memories ha' h'
      rw [htp, htg, htp', htg', hp, hg, he, unpackedCells_of_contracts s.p s'.draws s.draws ha hc]
      exact ⟨rfl, rfl⟩
    | encode f =>
      rw [Instr.fields_encode] at ha ha'
      obtain ⟨htp, htg⟩ := exec_encode_memories ha h
      obtain ⟨htp', htg'⟩ := exec_encode_memories ha' h'
      rw [htp, htg, htp', htg', hp, hg, he]
      exact ⟨rfl, rfl⟩
  · obtain ⟨htp, htg⟩ := exec_memories_of_not_admits ha h
    obtain ⟨htp', htg'⟩ := exec_memories_of_not_admits (he.symm ▸ ha) h'
    exact ⟨htp'.trans (hp.trans htp.symm), htg'.trans (hg.trans htg.symm)⟩

end Commands

/-! ### The statements -/

/-- Settles O23: a command that fails a check raises, and raising only responds. -/
theorem faultChangesNoByte : Obligations.FaultChangesNoByte := by
  intro i s ha
  obtain ⟨t, hexec, hresp, hp, hg, hkeeps⟩ := exec_raises ha (statusOf_of_not_admits ha)
  exact ⟨t, hexec, hp, hg, hkeeps, hresp⟩

/-- Settles O20: wrong dimensions are the first check, and the only one with this status. -/
theorem wrongDimensionsRaise : Obligations.WrongDimensionsRaise := by
  refine fun i s => ⟨fun hdims => ?_, fun t h hpending => ?_⟩
  · exact exec_raises (not_admits_of_dimensions hdims) (statusOf_eq_invalidDimensions_iff.2 hdims)
  · exact statusOf_eq_invalidDimensions_iff.1 (statusOf_of_pending h hpending)

/-- Settles O21: with good dimensions the two causes are what is left of not being admitted. -/
theorem outOfRangeRaises : Obligations.OutOfRangeRaises := by
  refine fun i s hw hh => ⟨fun hcause => ?_, fun t h hpending ha => ?_⟩
  · have hnot : ¬ s.env.Admits i.fields := by
      rintro ⟨-, -, hfits, hgrid⟩
      rcases hcause with hpassed | ⟨x, y, hpixel⟩
      · omega
      · exact hpixel (hgrid x y)
    exact exec_raises hnot (statusOf_eq_outOfRange (legal_iff.2 ⟨hw, hh⟩) hnot)
  · cases (statusOf_of_admits ha).symm.trans (statusOf_of_pending h hpending)

/-- Settles O22: a failing check rules out admission, and the status tells the first check from the other two. -/
theorem firstFailingCheckDecides : Obligations.FirstFailingCheckDecides := by
  intro i s
  have hfails {st : Status} (hnot : ¬ s.env.Admits i.fields) (hst : s.env.statusOf i.fields = st) :
      ∃ t, exec i s = .next t ∧ Responds i s t st ∧ t.p = s.p ∧ t.g = s.g := by
    obtain ⟨t, hexec, hresp, hp, hg, -⟩ := exec_raises hnot hst
    exact ⟨t, hexec, hresp, hp, hg⟩
  refine ⟨fun hl => ?dimensions, fun hl hpassed => ?planar, fun hl _ hgrid => ?grid, fun hl hfits hgrid hc => ?none⟩
  case dimensions =>
    have hdims := not_legal_iff.1 hl
    exact hfails (not_admits_of_dimensions hdims) (statusOf_eq_invalidDimensions_iff.2 hdims)
  case planar =>
    have hnot : ¬ s.env.Admits i.fields := fun ha => by
      obtain ⟨-, hfits, -⟩ := admits_iff.1 ha
      omega
    exact hfails hnot (statusOf_eq_outOfRange hl hnot)
  case grid =>
    have hnot : ¬ s.env.Admits i.fields := fun ha => by
      obtain ⟨-, -, hok⟩ := admits_iff.1 ha
      exact Bool.false_ne_true (hgrid.symm.trans hok)
    exact hfails hnot (statusOf_eq_outOfRange hl hnot)
  case none =>
    obtain ⟨haddress, -⟩ := hc
    obtain ⟨t, hexec, hresp, -⟩ := admittedCommandCompletes i s (admits_iff.2 ⟨hl, hfits, hgrid⟩) haddress
    exact ⟨t, hexec, hresp⟩

/-- Settles O24: a fault leaves the memories and the environment, and on these alone depend the next command's memories and
status. -/
theorem faultIsNotSticky : Obligations.FaultIsNotSticky := by
  intro i j s t u hi hc ht hu
  obtain ⟨htp, htg⟩ := exec_memories_of_not_admits hi ht
  obtain ⟨⟨hte, -⟩, -⟩ := exec_surroundings ht
  constructor
  · obtain ⟨v, hv⟩ := exists_exec_of_contract j (s := t) (hte.symm ▸ hc.1)
    obtain ⟨hvp, hvg⟩ := exec_memories_of_same_memories hc htp htg hte hu hv
    exact ⟨v, _, hv, hvp, hvg, exec_responds hu, hte ▸ exec_responds hv⟩
  · obtain ⟨w, hw, hresp, hwp, hwg, -⟩ := exec_raises (s := t) (i := i) (hte.symm ▸ hi) (by rw [hte])
    exact ⟨w, _, hw, hwp.trans htp, hwg.trans htg, exec_responds ht, hresp⟩

end Sys2Proof.Machine
end

section
/-! The turn of the next codec (R153; log 18). -/

namespace Sys2Proof.Machine

/-- The codec in turn goes behind all the others. -/
theorem State.turn_codecs (s : State) : s.turn.codecs = s.codecs.rotate 1 := by
  unfold State.turn
  split
  · next hothers => rw [State.codecs, hothers, List.rotate_singleton]
  · next c cs hothers => rw [State.codecs, State.codecs, hothers, List.rotate_cons_succ, List.rotate_zero, List.cons_append]

theorem act_turn (s : State) : s.act .turn = .next s.turn := by
  simp [State.act, HostAction.accesses, racesWith_empty]

/-- Settles O48: a turn never waits or races, and only rotates the codecs. -/
theorem turnKeepsAllCodecs : Obligations.TurnKeepsAllCodecs := by
  intro s rest hhost
  have hstep := (step_of_not_waits hhost rfl).trans (act_turn _)
  exact ⟨_, hstep, State.turn_codecs _, State.turn_p _, State.turn_g _, State.turn_env _, State.turn_host _⟩

end Sys2Proof.Machine
end

section
/-! How long commands stay in flight (R180): each step uses up some of `State.workLeft`, or the machine stutters with every codec
`IDLE`. -/

namespace Sys2Proof.Machine

/-! ### A stuttering machine -/

/-- Where every codec is `IDLE`, a host that does nothing finds the machine as it was (R23, R170; log 29). -/
theorem await_of_all_idle {s : State} (hidle : ∀ c ∈ s.codecs, c.phase = .idle) : s.await = .next s := by
  obtain ⟨hcodec, hothers⟩ := List.forall_mem_cons.1 hidle
  exact await_of_idle hcodec (splitBusy_eq_none.2 hothers)

theorem runs_of_stutter {k : Nat} {s t : State} (hs : step s = .next s) (hruns : Runs k s t) : t = s := by
  induction k with
  | zero => exact hruns
  | succ k ih =>
    obtain ⟨u, hu, hrest⟩ := hruns
    obtain rfl : u = s := Host.Outcome.next.inj (hu.symm.trans hs)
    exact ih hrest

/-! ### What one step leaves to do -/

theorem inFlight_le_of_others {s t : State} (ho : t.others = s.others) : t.inFlight ≤ s.inFlight + 1 := by
  simp only [State.inFlight, State.codecs, ho, List.countP_cons]
  split <;> split <;> omega

theorem inFlight_turn (s : State) : s.turn.inFlight = s.inFlight :=
  ((State.codecs_perm_turn s).countP_eq _).symm

/-- A reset is an affair of the codec in turn alone (log 27). -/
theorem resetCodec_others_host {s t : State} (h : s.resetCodec = .next t) : t.others = s.others ∧ t.host = s.host := by
  rcases resetCodec_next h with ⟨rfl, -⟩ | ⟨rfl, -⟩
  · exact ⟨rfl, rfl⟩
  · exact ⟨State.abandon_others .., State.abandon_host ..⟩

/-- A host action puts at most one more command in flight and adds nothing to what the host does next. -/
theorem ActsTo.inFlight_host {s t : State} {a : HostAction} (h : ActsTo s a t) :
    t.inFlight ≤ s.inFlight + 1 ∧ t.host = s.host := by
  cases h with
  | turn => exact ⟨(inFlight_turn s).le.trans (Nat.le_succ _), State.turn_host s⟩
  | reset hr =>
    obtain ⟨hothers, hhost⟩ := resetCodec_others_host hr
    exact ⟨inFlight_le_of_others hothers, hhost⟩
  | issue _ _ | nothing _ | take _ | readPlanar _ | writePlanar _ | readPixel _ | writePixel _ | reconfigure _ =>
    exact ⟨inFlight_le_of_others rfl, rfl⟩

/-- A completion takes one off the work left, and a host action two while it adds at most one; a step that does neither is a
stutter of `IDLE` codecs. -/
theorem step_workLeft {s t : State} (h : step s = .next t) : t.workLeft < s.workLeft ∨ (t = s ∧ s.inFlight = 0) := by
  rcases step_next h with hawait | ⟨a, rest, hhost, -, hact⟩
  · by_cases hn : s.inFlight = 0
    · cases hawait with
      | nothing _ => exact .inr ⟨rfl, hn⟩
      | complete hb _ => exact absurd hn (inFlight_ne_zero (List.mem_cons_self ..) hb)
      | @beside pre c post u _ ho _ hb _ => exact absurd hn (inFlight_ne_zero (c := c) (by simp [State.codecs, ho]) hb)
    · have hone := hawait.completesOne hn
      have hless := hone.inFlight
      obtain ⟨-, hhost, -⟩ := hone
      simp only [State.workLeft, hhost]
      omega
  · obtain ⟨-, hacts⟩ := act_next hact
    obtain ⟨hmore, hrest⟩ := hacts.inFlight_host
    have hsame : ({ s with host := rest } : State).inFlight = s.inFlight := rfl
    simp only [State.workLeft, hhost, hrest, List.length_cons]
    omega

/-- A run of at least as many steps as there is work left ends with nothing in flight. -/
theorem inFlight_eq_zero_of_runs {k : Nat} {s t : State} (hk : s.workLeft ≤ k) (hruns : Runs k s t) :
    t.inFlight = 0 := by
  induction k generalizing s with
  | zero =>
    obtain rfl : t = s := hruns
    unfold State.workLeft at hk
    omega
  | succ k ih =>
    obtain ⟨u, hu, hrest⟩ := hruns
    rcases step_workLeft hu with hless | ⟨rfl, hidle⟩
    · exact ih (by omega) hrest
    · rwa [runs_of_stutter hu hrest]

end Sys2Proof.Machine
end

section
/-! The host's own actions between commands and beside them: what an access does that races with nothing outstanding, that one
which races is refused, and when `advance` may be reconfigured. -/

namespace Sys2Proof.Machine

section Actions
variable {s : State}

/-! ### Accesses that race with nothing -/

theorem act_writePlanar {a : Nat} {v : Byte} (ha : a < s.env.pbufLen)
    (hr : racesWith s.env (HostAction.writePlanar a v).accesses s.codecs = false) :
    s.act (.writePlanar a v) = .next (s.withP (s.p.write a v)) := by
  simp [State.act, hr, ha]

theorem act_writePixel {i : Nat} {v : Byte} (hi : i < s.env.gridLen)
    (hr : racesWith s.env (HostAction.writePixel i v).accesses s.codecs = false) :
    s.act (.writePixel i v) = .next (s.withG (s.g.write i v)) := by
  simp [State.act, hr, hi]

theorem act_readPlanar {a : Nat} (ha : a < s.env.pbufLen)
    (hr : racesWith s.env (HostAction.readPlanar a).accesses s.codecs = false) :
    s.act (.readPlanar a) = .next { s with seen := s.seen ++ [s.p.read a] } := by
  simp [State.act, hr, ha]

theorem act_readPixel {i : Nat} (hi : i < s.env.gridLen)
    (hr : racesWith s.env (HostAction.readPixel i).accesses s.codecs = false) :
    s.act (.readPixel i) = .next { s with seen := s.seen ++ [s.g.read i] } := by
  simp [State.act, hr, hi]

/-! ### Accesses that race -/

/-- A host action that races with an outstanding command is refused (R62, R177; log 12). -/
theorem act_of_races {a : HostAction} (hr : racesWith s.env a.accesses s.codecs = true) :
    s.act a = .refused .dataRace := by
  simp [State.act, hr]

/-! ### Reconfiguration -/

/-- The host reconfigures `advance` between commands, and is refused otherwise (R179, R182; log 13). -/
theorem act_reconfigure (s : State) (tr : Transform) : s.act (.reconfigure tr) =
    if s.betweenCommands then .next { s with env := { s.env with transform := tr } } else .refused .environmentMoved := by
  simp [State.act, HostAction.accesses, racesWith_empty]

theorem not_betweenCommands_iff : s.betweenCommands = false ↔ ∃ c ∈ s.codecs, c.outstanding ≠ [] := by
  simp [← Bool.not_eq_true, betweenCommands_iff]

end Actions

theorem codec_eq_of_codecs_eq {s t : State} (h : t.codecs = s.codecs) : t.codec = s.codec := (List.cons.inj h).1

end Sys2Proof.Machine
end

section
/-! The statements about the host beside commands, and about when nothing is left in flight. -/

namespace Sys2Proof.Machine

/-- Settles O37: every step but a stutter of `IDLE` codecs uses up some of the work left. -/
theorem noCommandRunsForEver : Obligations.NoCommandRunsForEver :=
  fun _ _ _ hk hruns => inFlight_eq_zero.1 (inFlight_eq_zero_of_runs hk hruns)

/-- Settles O41: an access apart from the admitted commands' bytes races with none, and a command that fails its checks
accesses nothing. -/
theorem hostAccessesBesideACommand : Obligations.HostAccessesBesideACommand := by
  refine fun s rest => ⟨fun a v hhost ha hp hapart => ?_, fun i v hhost hi hg hapart => ?_,
    fun a hhost ha hapart => ?_, fun i hhost hi hapart => ?_⟩
  · have hrace : racesWith s.env (HostAction.writePlanar a v).accesses s.codecs = false :=
      racesWith_eq_false_of_admits fun c hc j hj hadm hr => hapart c hc j hj hadm ((races_writePlanar hadm a v).1 hr)
    exact ⟨_, (step_of_not_waits hhost rfl).trans (act_writePlanar ha hrace), Memory.read_write_self a v hp,
      fun a' hne => Memory.read_write_ne s.p v hne, rfl, rfl, rfl⟩
  · have hrace : racesWith s.env (HostAction.writePixel i v).accesses s.codecs = false :=
      racesWith_eq_false_of_admits fun c hc j hj hadm hr => hapart c hc j hj hadm ((races_writePixel hadm i v).1 hr)
    exact ⟨_, (step_of_not_waits hhost rfl).trans (act_writePixel hi hrace), Memory.read_write_self i v hg,
      fun i' hne => Memory.read_write_ne s.g v hne, rfl, rfl, rfl⟩
  · have hrace : racesWith s.env (HostAction.readPlanar a).accesses s.codecs = false := by
      refine racesWith_eq_false_of_admits fun c hc j hj hadm hr => ?_
      obtain ⟨hop, hin⟩ := (races_readPlanar hadm a).1 hr
      obtain ⟨f, rfl⟩ := Instr.op_eq_one_iff.1 hop
      exact hapart c hc f hj hadm hin
    exact ⟨_, (step_of_not_waits hhost rfl).trans (act_readPlanar ha hrace), rfl, rfl, rfl, rfl, rfl⟩
  · have hrace : racesWith s.env (HostAction.readPixel i).accesses s.codecs = false := by
      refine racesWith_eq_false_of_admits fun c hc j hj hadm hr => ?_
      obtain ⟨hop, hin⟩ := (races_readPixel hadm i).1 hr
      obtain ⟨f, rfl⟩ := Instr.op_eq_zero_iff.1 hop
      exact hapart c hc f hj hadm hin
    exact ⟨_, (step_of_not_waits hhost rfl).trans (act_readPixel hi hrace), rfl, rfl, rfl, rfl, rfl⟩

/-- Settles O40: with nothing outstanding there is no command that an access could race with, so O41 applies. -/
theorem hostAccessesBetweenCommands : Obligations.HostAccessesBetweenCommands := by
  intro s rest hdone
  have hnone : ∀ c ∈ s.codecs, ∀ j, j ∉ c.outstanding := fun c hc j => by simp [hdone c hc]
  obtain ⟨hwritePlanar, hwritePixel, hreadPlanar, hreadPixel⟩ := hostAccessesBesideACommand s rest
  refine ⟨fun a v hhost ha hp => ?_, fun i v hhost hi hg => ?_, fun a hhost ha => ?_, fun i hhost hi => ?_⟩
  · obtain ⟨t, hstep, hread, hkeeps, hg, hcodecs, hrest⟩ :=
      hwritePlanar a v hhost ha hp fun c hc j hj => absurd hj (hnone c hc j)
    exact ⟨t, hstep, hread, hkeeps, hg, codec_eq_of_codecs_eq hcodecs, hrest⟩
  · obtain ⟨t, hstep, hread, hkeeps, hp, hcodecs, hrest⟩ :=
      hwritePixel i v hhost hi hg fun c hc j hj => absurd hj (hnone c hc j)
    exact ⟨t, hstep, hread, hkeeps, hp, codec_eq_of_codecs_eq hcodecs, hrest⟩
  · obtain ⟨t, hstep, hseen, hp, hg, hcodecs, hrest⟩ :=
      hreadPlanar a hhost ha fun c hc f hf => absurd hf (hnone c hc _)
    exact ⟨t, hstep, hseen, hp, hg, codec_eq_of_codecs_eq hcodecs, hrest⟩
  · obtain ⟨t, hstep, hseen, hp, hg, hcodecs, hrest⟩ :=
      hreadPixel i hhost hi fun c hc f hf => absurd hf (hnone c hc _)
    exact ⟨t, hstep, hseen, hp, hg, codec_eq_of_codecs_eq hcodecs, hrest⟩

/-- Settles O43: each of the four accesses is one that the `races_` lemmas name, and `act` refuses the race. -/
theorem hostRaceIsRefused : Obligations.HostRaceIsRefused := by
  intro s rest c j hc hj hadm
  have hrefused : ∀ a : HostAction, s.waits a = false → s.host = a :: rest →
      a.accesses.races (s.env.accesses j) = true → step s = .refused .dataRace := fun a hgoes hhost hraces =>
    (step_of_not_waits hhost hgoes).trans (act_of_races (racesWith_eq_true.2 ⟨c, hc, j, hj, hraces⟩))
  refine ⟨fun a v hin hhost => ?_, fun i v hin hhost => ?_, fun a f hjf hin hhost => ?_, fun i f hjf hin hhost => ?_⟩
  · exact hrefused _ rfl hhost ((races_writePlanar hadm a v).2 hin)
  · exact hrefused _ rfl hhost ((races_writePixel hadm i v).2 hin)
  · subst hjf
    exact hrefused _ rfl hhost ((races_readPlanar hadm a).2 ⟨rfl, hin⟩)
  · subst hjf
    exact hrefused _ rfl hhost ((races_readPixel hadm i).2 ⟨rfl, hin⟩)

/-- Settles O35: the host does nothing and no codec is `BUSY`, at reset as anywhere. -/
theorem idleBlockDoesNothing : Obligations.IdleBlockDoesNothing := by
  have hstutters : ∀ s : State, (∀ c ∈ s.codecs, c.phase = .idle) → s.host = [] → step s = .next s :=
    fun s hidle hhost => (step_of_host_nil hhost).trans (await_of_all_idle hidle)
  exact ⟨hstutters State.reset (List.forall_mem_singleton.2 rfl) rfl, hstutters⟩

/-- Settles O47: a reconfiguration neither waits nor races, and `State.betweenCommands` alone decides it. -/
theorem reconfigureOnlyBetweenCommands : Obligations.ReconfigureOnlyBetweenCommands := by
  intro s tr rest hhost
  have hstep := (step_of_not_waits hhost rfl).trans (act_reconfigure _ tr)
  refine ⟨fun hdone => ?_, fun hleft => ?_⟩
  · have hbetween : ({ s with host := rest } : State).betweenCommands = true := betweenCommands_iff.2 hdone
    rw [hstep, if_pos hbetween]
  · have hnot : ({ s with host := rest } : State).betweenCommands = false := not_betweenCommands_iff.2 hleft
    rw [hstep, hnot, if_neg Bool.false_ne_true]

end Sys2Proof.Machine
end

section
/-! DECODE where `advance` puts several pixels on one index (U4; log 9): a pixel that alone targets its index is still the pixel
of R100. -/

namespace Sys2Proof.Machine

/-- The index of a pixel that no other pixel shares stands once in the image. -/
theorem image_count_of_alone {e : Env} {f : Fields} {x y : Lane}
    (h : ∀ x' y' : Lane, e.pix f x' y' = e.pix f x y → x' = x ∧ y' = y) : (e.image f).count (e.pix f x y) = 1 := by
  have hsame : ∀ c ∈ tileCoords, (e.pix f c.1 c.2 == e.pix f x y) = true ↔ (c == (x, y)) = true := fun c _ => by
    rw [beq_iff_eq, beq_iff_eq]
    exact ⟨fun hc => Prod.ext_iff.2 (h c.1 c.2 hc), fun hc => hc ▸ rfl⟩
  calc (e.image f).count (e.pix f x y)
      = tileCoords.countP fun c => e.pix f c.1 c.2 == e.pix f x y := List.countP_map
    _ = tileCoords.count (x, y) := List.countP_congr hsame
    _ = 1 := List.count_eq_one_of_mem tileCoords_nodup (mem_tileCoords _)

/-- An admitted DECODE leaves the pixel of R100 at an index that this pixel alone targets, whatever the other pixels do. -/
theorem exec_decode_pixel_of_alone {f : Fields} {s t : State} {x y : Lane} (ha : s.env.Admits f) (hg : s.g.wf)
    (h : exec (.decode f) s = .next t) (halone : ∀ x' y' : Lane, s.env.pix f x' y' = s.env.pix f x y → x' = x ∧ y' = y) :
    t.g.read (s.env.pix f x y) = unpackedPixel s.p f x y := by
  obtain ⟨-, htg⟩ := exec_decode_memories ha h
  calc t.g.read (s.env.pix f x y)
      = s.env.unpackedByte f s.p s.draws x y := by rw [htg, read_unpackedCells hg]
    _ = unpackedPixel s.p f x y := unpackedByte_of_count (image_count_of_alone halone)

/-- Settles O12: the contract of `address` alone lets the command complete, and an index that one pixel alone targets takes no
free value. -/
theorem decodeWithSharedPixelsCompletes : Obligations.DecodeWithSharedPixelsCompletes := by
  intro f s ha hc hg
  obtain ⟨t, hexec, hresp, -⟩ := exec_of_admits (i := .decode f) ha (imageInStore_of_contract ha hc)
  obtain ⟨hp, hout, -⟩ := decodeFrame f s t hexec
  refine ⟨t, hexec, hresp, hp, fun x y halone b => ?_, hout⟩
  rw [exec_decode_pixel_of_alone ha hg hexec halone]
  exact unpackedPixel_getLsbD s.p f x y b

end Sys2Proof.Machine
end
